-- ==== Sys2Proof/Word.lean ====
section
/-! DEFINITION. The machine's words: the widths of 00_scope.md R6 and 10_state.md R20 to R29. -/

namespace Sys2Proof

/-- One byte: a general register, a timer, a memory cell, an immediate `kk` (R20, R26, R30, R72). -/
abbrev Byte := BitVec 8

/-- One 16-bit word: `PC`, `I`, a stack slot, an instruction word (R22, R23, R24, R70). -/
abbrev Word := BitVec 16

/-- A 12-bit address field `nnn` (R72). -/
abbrev Addr := BitVec 12

/-- A 4-bit field: `op`, `n` or ignored bits (R72, R76). -/
abbrev Nibble := BitVec 4

/-- A register index `x` or `y`, 0 to 15 (R20, R72). -/
abbrev RegIdx := Fin 16

/-- A key index, 0 to 15 (R28). -/
abbrev KeyIdx := Fin 16

end Sys2Proof
end

