-- ==== Sys2Proof/Syntax.lean ====
section
/-! DEFINITION. The instructions: one constructor per row of spec/opcode_table.json, in the table's order
(30_encoding.md R75). A field `u` holds the bits the decoder does not examine (R76); no meaning reads it, but the fault
latch records the whole word (10_state.md R31), so a constructor keeps every bit of its word. -/

namespace Sys2Proof

inductive Instr where
  /-- `CLS`, 0uE0 (R141). -/
  | cls (u : Nibble)
  /-- `RET`, 0uEE (R102). -/
  | ret (u : Nibble)
  /-- `JP nnn`, 1nnn (R100). -/
  | jp (nnn : Addr)
  /-- `CALL nnn`, 2nnn (R101). -/
  | call (nnn : Addr)
  /-- `SE Vx, kk`, 3xkk (R103). -/
  | seVxKk (x : RegIdx) (kk : Byte)
  /-- `SNE Vx, kk`, 4xkk (R104). -/
  | sneVxKk (x : RegIdx) (kk : Byte)
  /-- `SE Vx, Vy`, 5xyu (R105). -/
  | seVxVy (x y : RegIdx) (u : Nibble)
  /-- `LD Vx, kk`, 6xkk (R110). -/
  | ldVxKk (x : RegIdx) (kk : Byte)
  /-- `ADD Vx, kk`, 7xkk (R111). -/
  | addVxKk (x : RegIdx) (kk : Byte)
  /-- `LD Vx, Vy`, 8xy0 (R112). -/
  | ldVxVy (x y : RegIdx)
  /-- `OR Vx, Vy`, 8xy1 (R113). -/
  | orVxVy (x y : RegIdx)
  /-- `AND Vx, Vy`, 8xy2 (R114). -/
  | andVxVy (x y : RegIdx)
  /-- `XOR Vx, Vy`, 8xy3 (R115). -/
  | xorVxVy (x y : RegIdx)
  /-- `ADD Vx, Vy`, 8xy4 (R116). -/
  | addVxVy (x y : RegIdx)
  /-- `SUB Vx, Vy`, 8xy5 (R117). -/
  | subVxVy (x y : RegIdx)
  /-- `SHR Vx`, 8xu6 (R118). -/
  | shrVx (x : RegIdx) (u : Nibble)
  /-- `SUBN Vx, Vy`, 8xy7 (R119). -/
  | subnVxVy (x y : RegIdx)
  /-- `SHL Vx`, 8xuE (R120). -/
  | shlVx (x : RegIdx) (u : Nibble)
  /-- `SNE Vx, Vy`, 9xyu (R106). -/
  | sneVxVy (x y : RegIdx) (u : Nibble)
  /-- `LD I, nnn`, Annn (R131). -/
  | ldINnn (nnn : Addr)
  /-- `JP V0, nnn`, Bnnn (R107). -/
  | jpV0Nnn (nnn : Addr)
  /-- `RND Vx, kk`, Cxkk (R126). -/
  | rndVxKk (x : RegIdx) (kk : Byte)
  /-- `DRW Vx, Vy, n`, Dxyn (R142). -/
  | drwVxVyN (x y : RegIdx) (n : Nibble)
  /-- `SKP Vx`, Ex9E (R150). -/
  | skpVx (x : RegIdx)
  /-- `SKNP Vx`, ExA1 (R151). -/
  | sknpVx (x : RegIdx)
  /-- `LD Vx, DT`, Fx07 (R155). -/
  | ldVxDt (x : RegIdx)
  /-- `LD Vx, K`, Fx0A (R152). -/
  | ldVxK (x : RegIdx)
  /-- `LD DT, Vx`, Fx15 (R156). -/
  | ldDtVx (x : RegIdx)
  /-- `LD ST, Vx`, Fx18 (R157). -/
  | ldStVx (x : RegIdx)
  /-- `ADD I, Vx`, Fx1E (R132). -/
  | addIVx (x : RegIdx)
  /-- `LD F, Vx`, Fx29 (R133). -/
  | ldFVx (x : RegIdx)
  /-- `LD B, Vx`, Fx33 (R134). -/
  | ldBVx (x : RegIdx)
  /-- `LD [I], Vx`, Fx55 (R135). -/
  | ldMemVx (x : RegIdx)
  /-- `LD Vx, [I]`, Fx65 (R136). -/
  | ldVxMem (x : RegIdx)
  /-- `UNKNOWN`: every word no other row matches, carried whole (R160). -/
  | unknown (w : Word)
  deriving DecidableEq, Repr

end Sys2Proof
end

