-- ==== Sys2Proof/WellFormed.lean ====
section
/-! DEFINITION. Well-formed instructions. Every operand but one is in range by its type; the one check left is that
`unknown` carries a word of the unknown space (30_encoding.md R79). The test of each check on an ill-formed term is in
Sys2Proof/Tests/Slice0.lean. -/

namespace Sys2Proof

/-- The unknown space as R79 lists it: (a) family 0, (b) family 8, (c) family E, (d) family F. -/
def unknownSpace (w : Word) : Bool :=
  let op := w.toNat / 4096
  let kk := w.toNat % 256
  let n := w.toNat % 16
  if op = 0x0 then !(kk = 0xE0 || kk = 0xEE)
  else if op = 0x8 then [0x8, 0x9, 0xA, 0xB, 0xC, 0xD, 0xF].contains n
  else if op = 0xE then !(kk = 0x9E || kk = 0xA1)
  else if op = 0xF then !([0x07, 0x0A, 0x15, 0x18, 0x1E, 0x29, 0x33, 0x55, 0x65].contains kk)
  else false

/-- An instruction is well formed unless it is an `unknown` whose word some other row matches. -/
def Instr.wellFormed : Instr → Bool
  | .unknown w => unknownSpace w
  | .cls _ | .ret _ | .jp _ | .call _ | .seVxKk _ _ | .sneVxKk _ _ | .seVxVy _ _ _ | .ldVxKk _ _ | .addVxKk _ _
  | .ldVxVy _ _ | .orVxVy _ _ | .andVxVy _ _ | .xorVxVy _ _ | .addVxVy _ _ | .subVxVy _ _ | .shrVx _ _
  | .subnVxVy _ _ | .shlVx _ _ | .sneVxVy _ _ _ | .ldINnn _ | .jpV0Nnn _ | .rndVxKk _ _ | .drwVxVyN _ _ _
  | .skpVx _ | .sknpVx _ | .ldVxDt _ | .ldVxK _ | .ldDtVx _ | .ldStVx _ | .addIVx _ | .ldFVx _ | .ldBVx _
  | .ldMemVx _ | .ldVxMem _ => true

end Sys2Proof
end

