-- ==== Sys2Proof/Decode.lean ====
section
/-! DEFINITION. The two-level decoder of 30_encoding.md R72 and R74, total on all 65536 words, and the encoder written
from the opcode map of R75. -/

namespace Sys2Proof

/-! ## Fields (R72) -/

/-- `op`, bits 15:12. -/
def opField (w : Word) : Nibble := w.extractLsb' 12 4

/-- `x`, bits 11:8, as the ignored or plain nibble. -/
def xNibble (w : Word) : Nibble := w.extractLsb' 8 4

/-- `y`, bits 7:4, as the ignored or plain nibble. -/
def yNibble (w : Word) : Nibble := w.extractLsb' 4 4

/-- `x`, bits 11:8, as a register index. -/
def xField (w : Word) : RegIdx := (xNibble w).toFin

/-- `y`, bits 7:4, as a register index. -/
def yField (w : Word) : RegIdx := (yNibble w).toFin

/-- `n`, bits 3:0. -/
def nField (w : Word) : Nibble := w.extractLsb' 0 4

/-- `kk`, bits 7:0. -/
def kkField (w : Word) : Byte := w.extractLsb' 0 8

/-- `nnn`, bits 11:0. -/
def nnnField (w : Word) : Addr := w.extractLsb' 0 12

/-! ## Decoding (R74) -/

/-- Family 0, on the low byte. -/
def decodeFamily0 (w : Word) : Instr :=
  match kkField w with
  | 0xE0 => .cls (xNibble w)
  | 0xEE => .ret (xNibble w)
  | _ => .unknown w

/-- Family 8, on the low nibble. -/
def decodeFamily8 (w : Word) : Instr :=
  match nField w with
  | 0x0 => .ldVxVy (xField w) (yField w)
  | 0x1 => .orVxVy (xField w) (yField w)
  | 0x2 => .andVxVy (xField w) (yField w)
  | 0x3 => .xorVxVy (xField w) (yField w)
  | 0x4 => .addVxVy (xField w) (yField w)
  | 0x5 => .subVxVy (xField w) (yField w)
  | 0x6 => .shrVx (xField w) (yNibble w)
  | 0x7 => .subnVxVy (xField w) (yField w)
  | 0xE => .shlVx (xField w) (yNibble w)
  | _ => .unknown w

/-- Family E, on the low byte. -/
def decodeFamilyE (w : Word) : Instr :=
  match kkField w with
  | 0x9E => .skpVx (xField w)
  | 0xA1 => .sknpVx (xField w)
  | _ => .unknown w

/-- Family F, on the low byte. -/
def decodeFamilyF (w : Word) : Instr :=
  match kkField w with
  | 0x07 => .ldVxDt (xField w)
  | 0x0A => .ldVxK (xField w)
  | 0x15 => .ldDtVx (xField w)
  | 0x18 => .ldStVx (xField w)
  | 0x1E => .addIVx (xField w)
  | 0x29 => .ldFVx (xField w)
  | 0x33 => .ldBVx (xField w)
  | 0x55 => .ldMemVx (xField w)
  | 0x65 => .ldVxMem (xField w)
  | _ => .unknown w

/-- The decoder (R74). All sixteen top nibbles have an arm; the last line is never reached. -/
def decode (w : Word) : Instr :=
  match opField w with
  | 0x0 => decodeFamily0 w
  | 0x1 => .jp (nnnField w)
  | 0x2 => .call (nnnField w)
  | 0x3 => .seVxKk (xField w) (kkField w)
  | 0x4 => .sneVxKk (xField w) (kkField w)
  | 0x5 => .seVxVy (xField w) (yField w) (nField w)
  | 0x6 => .ldVxKk (xField w) (kkField w)
  | 0x7 => .addVxKk (xField w) (kkField w)
  | 0x8 => decodeFamily8 w
  | 0x9 => .sneVxVy (xField w) (yField w) (nField w)
  | 0xA => .ldINnn (nnnField w)
  | 0xB => .jpV0Nnn (nnnField w)
  | 0xC => .rndVxKk (xField w) (kkField w)
  | 0xD => .drwVxVyN (xField w) (yField w) (nField w)
  | 0xE => decodeFamilyE w
  | 0xF => decodeFamilyF w
  | _ => .unknown w

/-- Why bytes do not decode: an instruction is two bytes (R70), and there are fewer. -/
inductive DecodeError where
  | truncated
  deriving DecidableEq, Repr

/-- The word of two bytes, the one at the lower address first (20_memory.md R53). -/
def wordOfBytes (hi lo : Byte) : Word := hi ++ lo

/-- Decode the instruction at the head of a byte sequence and give the bytes after it (R53, R70). -/
def decodeBytes : List Byte → Except DecodeError (Instr × List Byte)
  | hi :: lo :: rest => .ok (decode (wordOfBytes hi lo), rest)
  | [_] => .error .truncated
  | [] => .error .truncated

/-! ## Encoding (R75) -/

/-- A word from its top nibble, its `x` nibble and its low byte. -/
def wordXK (op x : Nibble) (kk : Byte) : Word := op ++ x ++ kk

/-- A word from its four nibbles. -/
def wordXYN (op x y n : Nibble) : Word := op ++ x ++ y ++ n

/-- A word from its top nibble and its low twelve bits. -/
def wordA (op : Nibble) (nnn : Addr) : Word := op ++ nnn

/-- A register index as the nibble that names it. -/
def nib (x : RegIdx) : Nibble := BitVec.ofFin (w := 4) x

/-- The word of an instruction, row by row of R75. -/
def encode : Instr → Word
  | .cls u => wordXK 0x0 u 0xE0
  | .ret u => wordXK 0x0 u 0xEE
  | .jp nnn => wordA 0x1 nnn
  | .call nnn => wordA 0x2 nnn
  | .seVxKk x kk => wordXK 0x3 (nib x) kk
  | .sneVxKk x kk => wordXK 0x4 (nib x) kk
  | .seVxVy x y u => wordXYN 0x5 (nib x) (nib y) u
  | .ldVxKk x kk => wordXK 0x6 (nib x) kk
  | .addVxKk x kk => wordXK 0x7 (nib x) kk
  | .ldVxVy x y => wordXYN 0x8 (nib x) (nib y) 0x0
  | .orVxVy x y => wordXYN 0x8 (nib x) (nib y) 0x1
  | .andVxVy x y => wordXYN 0x8 (nib x) (nib y) 0x2
  | .xorVxVy x y => wordXYN 0x8 (nib x) (nib y) 0x3
  | .addVxVy x y => wordXYN 0x8 (nib x) (nib y) 0x4
  | .subVxVy x y => wordXYN 0x8 (nib x) (nib y) 0x5
  | .shrVx x u => wordXYN 0x8 (nib x) u 0x6
  | .subnVxVy x y => wordXYN 0x8 (nib x) (nib y) 0x7
  | .shlVx x u => wordXYN 0x8 (nib x) u 0xE
  | .sneVxVy x y u => wordXYN 0x9 (nib x) (nib y) u
  | .ldINnn nnn => wordA 0xA nnn
  | .jpV0Nnn nnn => wordA 0xB nnn
  | .rndVxKk x kk => wordXK 0xC (nib x) kk
  | .drwVxVyN x y n => wordXYN 0xD (nib x) (nib y) n
  | .skpVx x => wordXK 0xE (nib x) 0x9E
  | .sknpVx x => wordXK 0xE (nib x) 0xA1
  | .ldVxDt x => wordXK 0xF (nib x) 0x07
  | .ldVxK x => wordXK 0xF (nib x) 0x0A
  | .ldDtVx x => wordXK 0xF (nib x) 0x15
  | .ldStVx x => wordXK 0xF (nib x) 0x18
  | .addIVx x => wordXK 0xF (nib x) 0x1E
  | .ldFVx x => wordXK 0xF (nib x) 0x29
  | .ldBVx x => wordXK 0xF (nib x) 0x33
  | .ldMemVx x => wordXK 0xF (nib x) 0x55
  | .ldVxMem x => wordXK 0xF (nib x) 0x65
  | .unknown w => w

/-- The two bytes of a word as memory holds them, high byte first (20_memory.md R53). -/
def bytesOfWord (w : Word) : List Byte := [w.extractLsb' 8 8, w.extractLsb' 0 8]

/-- The bytes of an instruction in memory order. -/
def encodeBytes (i : Instr) : List Byte := bytesOfWord (encode i)

/-! ## The opcode map as masks (R75) -/

/-- The `match` column of R75 for the row of an instruction. -/
def rowMatch : Instr → Word
  | .cls _ => 0x00E0 | .ret _ => 0x00EE | .jp _ => 0x1000 | .call _ => 0x2000 | .seVxKk _ _ => 0x3000
  | .sneVxKk _ _ => 0x4000 | .seVxVy _ _ _ => 0x5000 | .ldVxKk _ _ => 0x6000 | .addVxKk _ _ => 0x7000
  | .ldVxVy _ _ => 0x8000 | .orVxVy _ _ => 0x8001 | .andVxVy _ _ => 0x8002 | .xorVxVy _ _ => 0x8003
  | .addVxVy _ _ => 0x8004 | .subVxVy _ _ => 0x8005 | .shrVx _ _ => 0x8006 | .subnVxVy _ _ => 0x8007
  | .shlVx _ _ => 0x800E | .sneVxVy _ _ _ => 0x9000 | .ldINnn _ => 0xA000 | .jpV0Nnn _ => 0xB000
  | .rndVxKk _ _ => 0xC000 | .drwVxVyN _ _ _ => 0xD000 | .skpVx _ => 0xE09E | .sknpVx _ => 0xE0A1
  | .ldVxDt _ => 0xF007 | .ldVxK _ => 0xF00A | .ldDtVx _ => 0xF015 | .ldStVx _ => 0xF018 | .addIVx _ => 0xF01E
  | .ldFVx _ => 0xF029 | .ldBVx _ => 0xF033 | .ldMemVx _ => 0xF055 | .ldVxMem _ => 0xF065 | .unknown _ => 0x0000

/-- The `mask` column of R75 for the row of an instruction. -/
def rowMask : Instr → Word
  | .cls _ | .ret _ => 0xF0FF
  | .jp _ | .call _ | .seVxKk _ _ | .sneVxKk _ _ | .seVxVy _ _ _ | .ldVxKk _ _ | .addVxKk _ _ => 0xF000
  | .ldVxVy _ _ | .orVxVy _ _ | .andVxVy _ _ | .xorVxVy _ _ | .addVxVy _ _ | .subVxVy _ _ | .shrVx _ _
  | .subnVxVy _ _ | .shlVx _ _ => 0xF00F
  | .sneVxVy _ _ _ | .ldINnn _ | .jpV0Nnn _ | .rndVxKk _ _ | .drwVxVyN _ _ _ => 0xF000
  | .skpVx _ | .sknpVx _ | .ldVxDt _ | .ldVxK _ | .ldDtVx _ | .ldStVx _ | .addIVx _ | .ldFVx _ | .ldBVx _
  | .ldMemVx _ | .ldVxMem _ => 0xF0FF
  | .unknown _ => 0x0000

/-! ## The host's question -/

/-- The instruction the decoder reads from an instruction whose bits are `w`, numbered as spec/opcode_table.json
numbers them: bit 0 the least significant bit of the one 16-bit word. Bits at and above `nbits` are taken as 0. -/
def decodeTableWord (nbits w : Nat) : Option Instr :=
  match decodeBytes (bytesOfWord (BitVec.ofNat 16 (w % 2 ^ nbits))) with
  | .ok (i, _) => some i
  | .error _ => none

end Sys2Proof
end

