-- ==== Sys2Proof/Config.lean ====
section
/-! DEFINITION. What is fixed for one machine, and the free values. 00_scope.md R6 gives the sizes and R7 the open
parameters with their defaults; the inputs the host supplies (`rnd`, `keys_in`, `tick_due`, `debug`) are arguments of the
frame, and the ones `step` supplies are opaque, so no proof can rest on a value of theirs (log entries 3 and 4). -/

namespace Sys2Proof.Config

/-- `MEM_SIZE`: addresses 0x000 to 0xFFF exist (R6). -/
def memSize : Nat := 4096

/-- `FONT_SIZE`: the font occupies 0x000 to 0x04F (R6). -/
def fontSize : Nat := 0x50

/-- `ROM_BASE` (R6). -/
def romBase : Nat := 0x200

/-- `ROM_MAX` = 4096 - 0x200 (R6). -/
def romMax : Nat := 3584

/-- The parameters of R7: `IPF`, `PC_LIMIT` and `FONT`. They are no state (10_state.md R38): frames take the first two,
reset takes the third. -/
structure Params where
  /-- Instruction slots per frame (decision D8). -/
  ipf : Nat
  /-- A step is taken only while `PC < PC_LIMIT` (decision D7). -/
  pcLimit : Nat
  /-- `FONT[0..79]`: the bytes reset installs at 0x000 to 0x04F (10_state.md R33). -/
  font : Vector Byte 80
  deriving DecidableEq, Repr

/-- The constraints the spec puts on the parameters: `IPF >= 1` (U11) and `PC_LIMIT <= 0x0FFF` (R90). -/
def Params.ok (P : Params) : Prop := 1 ≤ P.ipf ∧ P.pcLimit ≤ 0xFFF

/-- The default of `FONT`, glyph after glyph. PRESUMED (log entry 7): 10_state.md R33 marks the bytes as general
knowledge. -/
def fontBytes : List Byte :=
  [0xF0, 0x90, 0x90, 0x90, 0xF0] ++ [0x20, 0x60, 0x20, 0x20, 0x70] ++ [0xF0, 0x10, 0xF0, 0x80, 0xF0] ++
  [0xF0, 0x10, 0xF0, 0x10, 0xF0] ++ [0x90, 0x90, 0xF0, 0x10, 0x10] ++ [0xF0, 0x80, 0xF0, 0x10, 0xF0] ++
  [0xF0, 0x80, 0xF0, 0x90, 0xF0] ++ [0xF0, 0x10, 0x20, 0x40, 0x40] ++ [0xF0, 0x90, 0xF0, 0x90, 0xF0] ++
  [0xF0, 0x90, 0xF0, 0x10, 0xF0] ++ [0xF0, 0x90, 0xF0, 0x90, 0x90] ++ [0xE0, 0x90, 0xE0, 0x90, 0xE0] ++
  [0xF0, 0x80, 0x80, 0x80, 0xF0] ++ [0xE0, 0x90, 0x90, 0x90, 0xE0] ++ [0xF0, 0x80, 0xF0, 0x80, 0xF0] ++
  [0xF0, 0x80, 0xF0, 0x80, 0x80]

/-- The defaults of R7 (log entries 5, 6 and 7). -/
def params : Params := { ipf := 11, pcLimit := 0x0FFE, font := ⟨⟨fontBytes⟩, rfl⟩ }

/-- FREE VALUE (log entry 4): the byte the random source delivers to the `n`-th executed `RND` (R125) where the frame request
names none. -/
opaque rnd (n : Nat) : Byte

/-- FREE VALUE (log entry 3): the key states pushed at the start of the `n`-th frame, key `k` at bit `k` (R181). -/
opaque keysIn (n : Nat) : BitVec 16

/-- FREE VALUE (log entry 3): whether 1/60 s has elapsed, sampled at the end of the `n`-th frame (R183). -/
opaque tickDue (n : Nat) : Bool

/-- FREE VALUE (log entry 3): whether the `n`-th frame emits trace records (R7, R83). -/
opaque debug (n : Nat) : Bool

end Sys2Proof.Config
end

