-- ==== Sys2Proof/Machine/State.lean ====
section
/-! DEFINITION. The state of the c8tk core as plain data: everything 10_state.md gives it (R20 to R34), and after it the
model's own fields, each named in a log entry. -/

namespace Sys2Proof.Machine

/-- The causes of the five faults (60_exceptions.md R170). These are the spec's faults: an instruction that raises one
answers a NEXT state in which the latch is set (R172). -/
inductive FaultCause where
  /-- Code 1: `CALL` with the stack full (R101). -/
  | stackOverflow
  /-- Code 2: `RET` with the stack empty (R102). -/
  | stackUnderflow
  /-- Code 3: a data access above 0xFFF (20_memory.md R57, R58). -/
  | addressFault
  /-- Code 4: a store that starts in the font (20_memory.md R58). -/
  | fontWriteFault
  /-- Code 5: `SKP` or `SKNP` with a key value above 15 (R150, R151). -/
  | keyIndexFault
  deriving DecidableEq, Repr

/-- What the fault latch holds: code, address of the instruction and its word (10_state.md R31). -/
structure FaultRecord where
  cause : FaultCause
  addr : Word
  word : Word
  deriving DecidableEq, Repr

/-- The trace record (30_encoding.md R83): the values before the instruction executes and its mnemonic string. -/
structure TraceRecord where
  pc : Word
  v : Vector Byte 16
  ireg : Word
  dt : Byte
  st : Byte
  mnemonic : String
  deriving DecidableEq, Repr

/-- The three outputs of the core (60_exceptions.md R190). They change no state of the spec. -/
inductive Event where
  /-- `Trace` (R83). -/
  | trace (r : TraceRecord)
  /-- `UnknownOpcode(a, w)` (48_unknown.md R160). -/
  | unknownOpcode (a w : Word)
  /-- `SoundEdge` (60_exceptions.md R186). -/
  | soundEdge
  deriving DecidableEq, Repr

/-- What the host supplies with a frame request (60_exceptions.md R180, R191). -/
structure FrameRequest where
  keysIn : BitVec 16
  tickDue : Bool
  debug : Bool
  /-- The bytes for the `RND`s of the frame, in the order they are executed; an `RND` past the last of them draws a free
  value (log entry 4). -/
  rnd : List Byte := []
  deriving DecidableEq, Repr

/-- A frame request in progress: the slots it still has, and its two inputs that outlive the key push (log entry 2). -/
structure FrameRun where
  slots : Nat
  tickDue : Bool
  debug : Bool
  deriving DecidableEq, Repr

/-- Where the run stands with respect to the ROM load (60_exceptions.md R191, 70_reset_and_hazards.md R203, R204; log
entry 11). -/
inductive RomStatus where
  | notLoaded
  | loaded
  | rejected
  deriving DecidableEq, Repr

/-- Main memory (10_state.md R30): the bytes that are not 0, by rising address (log entry 8). -/
abbrev Memory := List Host.Cell

/-- The framebuffer (10_state.md R29): 32 rows of 64 pixels, pixel (px, py) is bit px of row py (log entry 9). -/
abbrev Framebuffer := Vector (BitVec 64) 32

structure State where
  /-- `V[0]` to `V[15]`; `V[15]` is VF (R20, R21). -/
  v : Vector Byte 16
  /-- `I` (R22). -/
  ireg : Word
  /-- `PC` (R23). -/
  pc : Word
  /-- `SP`, 0 to 16 (R25). -/
  sp : Fin 17
  /-- `stack[0]` to `stack[15]` (R24). -/
  stack : Vector Word 16
  /-- `DT` (R26). -/
  dt : Byte
  /-- `ST` (R27). -/
  st : Byte
  /-- `keys`, key k at bit k (R28). -/
  keys : BitVec 16
  /-- `fb` (R29). -/
  fb : Framebuffer
  /-- `mem` (R30). -/
  mem : Memory
  /-- `fault` (R31). -/
  fault : Option FaultRecord
  /-- `sound_prev` (R32). -/
  soundPrev : Bool
  /-- The model's own: the frame request in progress, none between frames (log entry 2). -/
  frame : Option FrameRun
  /-- The model's own: frame requests begun so far, the index of the free frame inputs (log entry 3). -/
  frames : Nat
  /-- The model's own: `RND` executed so far, the index of the free random bytes (log entry 4). -/
  draws : Nat
  /-- The model's own: the random bytes supplied with the frame request and not yet consumed (log entry 4). -/
  rndIn : List Byte
  /-- The model's own: the ROM load (log entry 11). -/
  rom : RomStatus
  /-- The model's own: events emitted and not yet collected by the host, oldest first (log entry 10). -/
  out : List Event
  deriving DecidableEq, Repr

/-- Stops of the machine at the level of a step. The spec's own faults are not among them: they are latched (R172). -/
inductive Fault where
  /-- The fetch would read past 0xFFF. Raised by the slot of a frame only when `PC_LIMIT` breaks the constraint of R90,
  never with the default parameters. SAFE: the spec gives such a machine no meaning (20_memory.md R54). -/
  | fetchOutsideMemory (addr : Nat)
  deriving DecidableEq, Repr

/-- Why a step has no meaning. -/
inductive Refusal where
  /-- An instruction without a meaning, named as spec/opcode_table.json names it. Raised by an arm of `exec` only; no arm
  raises it. SAFE. -/
  | notModelled (mnemonic : String)
  /-- A frame request after the ROM load answered `RomTooLarge`, which the host must not issue (70_reset_and_hazards.md
  R204, 60_exceptions.md R191). Raised by the step between frames. SAFE: the spec gives such a run no meaning. -/
  | frameAfterRomTooLarge
  deriving DecidableEq, Repr

/-- The outcome of a step or of a meaning. -/
abbrev Result := Host.Outcome State Fault Refusal

/-- The memory that holds a byte sequence from an address on and 0 elsewhere. -/
def Memory.ofBytes (a : Nat) : List Byte → Memory
  | [] => []
  | b :: bs => if b = 0 then Memory.ofBytes (a + 1) bs else (a, b) :: Memory.ofBytes (a + 1) bs

/-- The state right after reset (10_state.md R34, 70_reset_and_hazards.md R200), for every `FONT`: "memory zeroed, font
table installed" (log entry 8). -/
def State.resetWith (P : Config.Params) : State where
  v := Vector.replicate 16 0x00
  ireg := 0x0000
  pc := 0x0200
  sp := 0
  stack := Vector.replicate 16 0x0000
  dt := 0x00
  st := 0x00
  keys := 0x0000
  fb := Vector.replicate 32 0
  mem := Memory.ofBytes 0 P.font.toList
  fault := none
  soundPrev := false
  frame := none
  frames := 0
  draws := 0
  rndIn := []
  rom := .notLoaded
  out := []

/-- The state right after reset with the default parameters. -/
def State.reset : State := State.resetWith Config.params

end Sys2Proof.Machine
end

