-- ==== Sys2Proof/Machine/Ops.lean ====
section
/-! DEFINITION. The named operations over memory, registers, the stack, the program counter, the event output and the
fault latch. Every read and write of the state by a meaning goes through one of them. -/

namespace Sys2Proof.Machine

/-! ## Main memory (20_memory.md R50 to R58) -/

/-- What an unlisted address reads as: zero, as reset leaves memory before it installs the font (R34; log entry 8). -/
def Memory.unlisted (_a : Nat) : Byte := 0

/-- The listed byte at an address, if there is one. -/
def Memory.listed (a : Nat) : Memory → Option Byte
  | [] => none
  | (c, b) :: m => if c = a then some b else Memory.listed a m

/-- `MemRead(a, 1)` (R9). The rules read only addresses that exist; the checks of R57 come first. -/
def Memory.read (m : Memory) (a : Nat) : Byte := (Memory.listed a m).getD (Memory.unlisted a)

/-- Remove the listing of an address. -/
def Memory.unlist (a : Nat) : Memory → Memory
  | [] => []
  | (c, b) :: m => if c = a then Memory.unlist a m else (c, b) :: Memory.unlist a m

/-- List a byte at an address, in its place by rising address. -/
def Memory.list (a : Nat) (b : Byte) : Memory → Memory
  | [] => [(a, b)]
  | (c, d) :: m =>
    if a < c then (a, b) :: (c, d) :: m
    else if a = c then (a, b) :: m
    else (c, d) :: Memory.list a b m

/-- `MemWrite(a, 1, b)` (R9). An address that does not exist takes nothing (R51); the checks of R58 come first, so no
rule writes one. The byte an unlisted address reads as is kept by listing nothing. -/
def Memory.write (m : Memory) (a : Nat) (b : Byte) : Memory :=
  if a < Config.memSize then
    if b = Memory.unlisted a then Memory.unlist a m else Memory.list a b m
  else m

/-- Addresses strictly rise and all lie above `lo`. -/
def Memory.risesFrom (lo : Nat) : Memory → Bool
  | [] => true
  | (a, _) :: m => decide (lo ≤ a) && Memory.risesFrom (a + 1) m

/-- The canonical form: addresses strictly rise, every address exists, and no byte is listed that reads so unlisted. -/
def Memory.wf (m : Memory) : Bool :=
  Memory.risesFrom 0 m && m.all (fun c => decide (c.1 < Config.memSize) && decide (c.2 ≠ Memory.unlisted c.1))

/-- Store a byte sequence at consecutive addresses. -/
def Memory.writeAll (m : Memory) (a : Nat) : List Byte → Memory
  | [] => m
  | b :: bs => Memory.writeAll (m.write a b) (a + 1) bs

/-- The byte of the state's memory at an address. -/
def State.readByte (s : State) (a : Nat) : Byte := s.mem.read a

/-- The state with one byte stored. -/
def State.writeByte (s : State) (a : Nat) (b : Byte) : State := { s with mem := s.mem.write a b }

/-- The word at an address, high byte first (R53). -/
def State.readWord (s : State) (a : Nat) : Word := wordOfBytes (s.readByte a) (s.readByte (a + 1))

/-- `CheckRead(lo, hi)` (R9, R57): only the highest address matters. -/
def checkRead (hi : Nat) : Option FaultCause :=
  if hi > 0xFFF then some .addressFault else none

/-- `CheckWrite(lo, hi)` (R9, R58): out of range before font. -/
def checkWrite (lo hi : Nat) : Option FaultCause :=
  if hi > 0xFFF then some .addressFault
  else if lo < Config.fontSize then some .fontWriteFault
  else none

/-! ## Registers (10_state.md R20 to R29) -/

/-- `V[x]`. -/
def State.reg (s : State) (x : RegIdx) : Byte := s.v[x]

/-- `V[x] <- b`. -/
def State.setReg (s : State) (x : RegIdx) (b : Byte) : State := { s with v := s.v.set x b }

/-- The index of `VF`, the flag register (R21). -/
def vf : RegIdx := 15

/-- `V[15] <- 1` or `0` (R21). -/
def State.setFlag (s : State) (c : Bool) : State := s.setReg vf (if c then 1 else 0)

/-- `I <- w`. -/
def State.setI (s : State) (w : Word) : State := { s with ireg := w }

/-- `DT <- b`. -/
def State.setDt (s : State) (b : Byte) : State := { s with dt := b }

/-- `ST <- b`. -/
def State.setSt (s : State) (b : Byte) : State := { s with st := b }

/-- The framebuffer replaced. -/
def State.setFb (s : State) (f : Framebuffer) : State := { s with fb := f }

/-! ## Program counter (R23) -/

/-- `PC <- w`. -/
def State.setPc (s : State) (w : Word) : State := { s with pc := w }

/-- The advance that comes before the effects: `PC <- (PC + 2) mod 2^16` (40_step_cycle.md R91). -/
def State.advance (s : State) : State := s.setPc (s.pc + 2)

/-- `if c then PC <- (PC + 2) mod 2^16`: the extra step of a taken skip (R103). -/
def State.skipIf (s : State) (c : Bool) : State := s.setPc (if c then s.pc + 2 else s.pc)

/-! ## Call stack (R24, R25) -/

/-- `stack[SP] <- w; SP <- SP + 1`, or none when `SP = 16`. -/
def State.push (s : State) (w : Word) : Option State :=
  if h : s.sp.val < 16 then
    some { s with stack := s.stack.set s.sp.val w, sp := ⟨s.sp.val + 1, by omega⟩ }
  else none

/-- `SP <- SP - 1` and the slot it then names, or none when `SP = 0`. The slot keeps its value (decision D22). -/
def State.pop (s : State) : Option (Word × State) :=
  if h : 0 < s.sp.val then
    some (s.stack[s.sp.val - 1], { s with sp := ⟨s.sp.val - 1, by omega⟩ })
  else none

/-! ## Keys (R28) -/

/-- `keys[k] = 1`. -/
def State.keyHeld (s : State) (k : KeyIdx) : Bool := s.keys.getLsbD k.val

/-- Every register or key index, rising. -/
def allIdx : List (Fin 16) := [0, 1, 2, 3, 4, 5, 6, 7, 8, 9, 10, 11, 12, 13, 14, 15]

/-- `min { k | keys[k] = 1 }`, or none when no key is held (46_input.md R152). -/
def State.lowestKey (s : State) : Option KeyIdx := allIdx.find? s.keyHeld

/-! ## Framebuffer (R29) -/

/-- Pixel (px, py): column px, row py. -/
def Framebuffer.pixel (f : Framebuffer) (px : Fin 64) (py : Fin 32) : Bool := f[py].getLsbD px.val

/-- `fb[j]` of the spec, `j = py*64 + px` (decision D16). -/
def Framebuffer.at (f : Framebuffer) (j : Fin 2048) : Bool :=
  f.pixel ⟨j.val % 64, by omega⟩ ⟨j.val / 64, by omega⟩

/-- The framebuffer with every pixel 0. -/
def Framebuffer.clear : Framebuffer := Vector.replicate 32 0

/-- `fb[j] <- fb[j] xor 1` for pixel (px, py). -/
def Framebuffer.flip (f : Framebuffer) (px : Fin 64) (py : Fin 32) : Framebuffer :=
  f.set py (f[py] ^^^ BitVec.twoPow 64 px.val)

/-! ## Events (60_exceptions.md R190) -/

/-- `emit e`. -/
def State.emit (s : State) (e : Event) : State := { s with out := s.out ++ [e] }

/-! ## Taking a fault (60_exceptions.md R172) -/

/-- The code of a fault (R170). -/
def FaultCause.code : FaultCause → Nat
  | .stackOverflow => 1
  | .stackUnderflow => 2
  | .addressFault => 3
  | .fontWriteFault => 4
  | .keyIndexFault => 5

/-- `raise F`: the one fault entry. From the state before instruction `i`, the latch takes (code, address, word), `PC`
keeps the post-advance value, and nothing else changes (R172, R94). There is no return: only reset clears the latch
(R173). -/
def takeFault (c : FaultCause) (i : Instr) (s : State) : State :=
  { s.advance with fault := some { cause := c, addr := s.pc, word := encode i } }

/-- An instruction whose checks come before its first write (R94): the fault if a check raised one, else its effect. -/
def checked (c : Option FaultCause) (i : Instr) (s t : State) : State :=
  match c with
  | some f => takeFault f i s
  | none => t

end Sys2Proof.Machine
end

