-- ==== Sys2Proof/Machine/Operands.lean ====
section
/-! DEFINITION. The operand forms: immediates (30_encoding.md R73), the memory operand `[I]` (44_memory_bcd.md R130),
the register range `V0 .. Vx` and the key named by a register (46_input.md R150). -/

namespace Sys2Proof.Machine

/-- `zext_16(nnn)` (R73). -/
def zextAddr (nnn : Addr) : Word := nnn.setWidth 16

/-- `zext_16(b)` (R107, R132). -/
def zextByte (b : Byte) : Word := b.setWidth 16

/-- The effective address `I + k` over the unbounded integers, never wrapped (R130). -/
def effAddr (s : State) (k : Nat) : Nat := s.ireg.toNat + k

/-- The registers `V0 .. Vx`, rising (R135, R136). -/
def regsUpTo (x : RegIdx) : List RegIdx := allIdx.take (x.val + 1)

/-- The key named by the value of `Vx`, none above 15 (R150). -/
def keyOperand (s : State) (x : RegIdx) : Option KeyIdx :=
  if h : (s.reg x).toNat < 16 then some ⟨(s.reg x).toNat, h⟩ else none

end Sys2Proof.Machine
end

