-- ==== Sys2Proof/Machine/Flags.lean ====
section
/-! DEFINITION. The flag computations (10_state.md R21, 42_arithmetic.md R116 to R121), on exact integers. -/

namespace Sys2Proof.Machine

/-- The carry of `a + b`: the exact sum exceeds 255 (R116). -/
def carryOut (a b : Byte) : Bool := decide (a.toNat + b.toNat > 255)

/-- No borrow in `a - b`: `a >= b` (R117, R119). -/
def noBorrow (a b : Byte) : Bool := decide (a.toNat ≥ b.toNat)

/-- Bit 0, which `SHR` shifts out (R118). -/
def shrOut (a : Byte) : Bool := a.getLsbD 0

/-- Bit 7, which `SHL` shifts out (R120). -/
def shlOut (a : Byte) : Bool := a.getLsbD 7

/-- `(a + b) mod 256` (R111, R116). -/
def sumMod (a b : Byte) : Byte := BitVec.ofNat 8 ((a.toNat + b.toNat) % 256)

/-- `(a - b) mod 256` (R117, R119). -/
def diffMod (a b : Byte) : Byte := BitVec.ofInt 8 (((a.toNat : Int) - (b.toNat : Int)) % 256)

end Sys2Proof.Machine
end

