-- ==== Sys2Proof/Machine/Arith.lean ====
section
/-! DEFINITION. The arithmetic and logic instructions (42_arithmetic.md R110 to R122). The order of the two writes shows
only when the destination is `VF` (R122): `ADD`, `SUB`, `SUBN` write the flag last, `SHR`, `SHL` write it first. -/

namespace Sys2Proof.Machine

/-- `LD Vx, kk` (R110). -/
def execLdVxKk (x : RegIdx) (kk : Byte) (s : State) : Result :=
  .next (s.advance.setReg x kk)

/-- `ADD Vx, kk` (R111): no flag. -/
def execAddVxKk (x : RegIdx) (kk : Byte) (s : State) : Result :=
  .next (s.advance.setReg x (sumMod (s.reg x) kk))

/-- `LD Vx, Vy` (R112). -/
def execLdVxVy (x y : RegIdx) (s : State) : Result :=
  .next (s.advance.setReg x (s.reg y))

/-- `OR Vx, Vy` (R113): no flag. -/
def execOrVxVy (x y : RegIdx) (s : State) : Result :=
  .next (s.advance.setReg x (s.reg x ||| s.reg y))

/-- `AND Vx, Vy` (R114): no flag. -/
def execAndVxVy (x y : RegIdx) (s : State) : Result :=
  .next (s.advance.setReg x (s.reg x &&& s.reg y))

/-- `XOR Vx, Vy` (R115): no flag. -/
def execXorVxVy (x y : RegIdx) (s : State) : Result :=
  .next (s.advance.setReg x (s.reg x ^^^ s.reg y))

/-- A result to `Vx`, then a flag to `VF`: the order of R116, R117 and R119. -/
def resultThenFlag (x : RegIdx) (r : Byte) (c : Bool) (s : State) : State :=
  (s.advance.setReg x r).setFlag c

/-- `ADD Vx, Vy` (R116). -/
def execAddVxVy (x y : RegIdx) (s : State) : Result :=
  .next (resultThenFlag x (sumMod (s.reg x) (s.reg y)) (carryOut (s.reg x) (s.reg y)) s)

/-- `SUB Vx, Vy` (R117). -/
def execSubVxVy (x y : RegIdx) (s : State) : Result :=
  .next (resultThenFlag x (diffMod (s.reg x) (s.reg y)) (noBorrow (s.reg x) (s.reg y)) s)

/-- `SUBN Vx, Vy` (R119). -/
def execSubnVxVy (x y : RegIdx) (s : State) : Result :=
  .next (resultThenFlag x (diffMod (s.reg y) (s.reg x)) (noBorrow (s.reg y) (s.reg x)) s)

/-- A flag to `VF`, then `Vx` shifted as it now stands: the order of R118 and R120. -/
def flagThenShift (x : RegIdx) (c : Bool) (shift : Byte → Byte) (s : State) : State :=
  (s.advance.setFlag c).setReg x (shift ((s.advance.setFlag c).reg x))

/-- `SHR Vx` (R118), in place; `u` is not examined (decision D12). -/
def execShrVx (x : RegIdx) (_u : Nibble) (s : State) : Result :=
  .next (flagThenShift x (shrOut (s.reg x)) (fun b => b >>> 1) s)

/-- `SHL Vx` (R120), in place; `u` is not examined (decision D12). -/
def execShlVx (x : RegIdx) (_u : Nibble) (s : State) : Result :=
  .next (flagThenShift x (shlOut (s.reg x)) (fun b => b <<< 1) s)

end Sys2Proof.Machine
end

