-- ==== Sys2Proof/Machine/Control.lean ====
section
/-! DEFINITION. The control-flow instructions (41_control_flow.md R100 to R107). Each meaning takes the state before the
instruction, whose `PC` is the instruction's address, and makes the advance of R91 first. -/

namespace Sys2Proof.Machine

/-- `JP nnn` (R100). -/
def execJp (nnn : Addr) (s : State) : Result :=
  .next (s.advance.setPc (zextAddr nnn))

/-- `CALL nnn` (R101): the pushed value is the post-advance `PC`. -/
def execCall (nnn : Addr) (s : State) : Result :=
  .next (match s.advance.push s.advance.pc with
    | none => takeFault .stackOverflow (.call nnn) s
    | some t => t.setPc (zextAddr nnn))

/-- `RET` (R102). -/
def execRet (u : Nibble) (s : State) : Result :=
  .next (match s.advance.pop with
    | none => takeFault .stackUnderflow (.ret u) s
    | some (w, t) => t.setPc w)

/-- `SE Vx, kk` (R103). -/
def execSeVxKk (x : RegIdx) (kk : Byte) (s : State) : Result :=
  .next (s.advance.skipIf (decide (s.reg x = kk)))

/-- `SNE Vx, kk` (R104). -/
def execSneVxKk (x : RegIdx) (kk : Byte) (s : State) : Result :=
  .next (s.advance.skipIf (decide (s.reg x ≠ kk)))

/-- `SE Vx, Vy` (R105); `u` is not examined (R76). -/
def execSeVxVy (x y : RegIdx) (_u : Nibble) (s : State) : Result :=
  .next (s.advance.skipIf (decide (s.reg x = s.reg y)))

/-- `SNE Vx, Vy` (R106); `u` is not examined (R76). -/
def execSneVxVy (x y : RegIdx) (_u : Nibble) (s : State) : Result :=
  .next (s.advance.skipIf (decide (s.reg x ≠ s.reg y)))

/-- `JP V0, nnn` (R107). -/
def execJpV0Nnn (nnn : Addr) (s : State) : Result :=
  .next (s.advance.setPc (zextAddr nnn + zextByte (s.reg 0)))

end Sys2Proof.Machine
end

