-- ==== Sys2Proof/Machine/Display.lean ====
section
/-! DEFINITION. The display instructions (45_display.md R140 to R143). -/

namespace Sys2Proof.Machine

/-- `CLS` (R141); `u` is not examined (R76). -/
def execCls (_u : Nibble) (s : State) : Result :=
  .next (s.advance.setFb Framebuffer.clear)

/-- Sprite pixel (c, r) of a row byte: bit 7 is the leftmost (R140, decision D15). -/
def spriteBit (b : Byte) (c : Nat) : Bool := b.getLsbD (7 - c)

/-- Row `r` of the sprite at `I` (R140). -/
def spriteRow (s : State) (r : Nat) : Byte := s.readByte (effAddr s r)

/-- The framebuffer pixel under sprite pixel (c, r) of a sprite drawn at origin (ox, oy): both axes wrap (R140). -/
def torus (ox oy c r : Nat) : Fin 64 × Fin 32 :=
  (⟨(ox + c) % 64, by omega⟩, ⟨(oy + r) % 32, by omega⟩)

/-- The framebuffer pixels under the 1 pixels of an n-row sprite, in the order of R142's two loops. -/
def spriteCells (s : State) (ox oy n : Nat) : List (Fin 64 × Fin 32) :=
  (List.range n).flatMap fun r =>
    ((List.range 8).filter fun c => spriteBit (spriteRow s r) c).map fun c => torus ox oy c r

/-- What the drawing loop carries: the framebuffer, and whether a lit pixel was turned off. -/
structure Canvas where
  fb : Framebuffer
  hit : Bool
  deriving DecidableEq, Repr

/-- The body of R142's loop for one 1 pixel: a collision if the pixel is lit, then the XOR. -/
def plot (c : Canvas) (p : Fin 64 × Fin 32) : Canvas :=
  { fb := c.fb.flip p.1 p.2, hit := c.hit || c.fb.pixel p.1 p.2 }

/-- The drawing loops of R142. -/
def drawSprite (s : State) (ox oy n : Nat) : Canvas :=
  (spriteCells s ox oy n).foldl plot { fb := s.fb, hit := false }

/-- The effect of `DRW` once its check has passed (R142): `VF` is reset first, the origin is read after that, once
(decision D14), and the collision flag is written at the end. -/
def drawEffect (x y : RegIdx) (n : Nibble) (s : State) : State :=
  let z := s.setFlag false
  let c := drawSprite z ((z.reg x).toNat % 64) ((z.reg y).toNat % 32) n.toNat
  (z.setFb c.fb).setFlag c.hit

/-- `if n > 0 then CheckRead(I, I + n - 1)` (R142). -/
def checkSprite (n : Nibble) (s : State) : Option FaultCause :=
  if n = 0 then none else checkRead (effAddr s (n.toNat - 1))

/-- `DRW Vx, Vy, n` (R142). -/
def execDrwVxVyN (x y : RegIdx) (n : Nibble) (s : State) : Result :=
  .next (checked (checkSprite n s) (.drwVxVyN x y n) s (drawEffect x y n s.advance))

end Sys2Proof.Machine
end

