-- ==== Sys2Proof/Machine/Input.lean ====
section
/-! DEFINITION. The input instructions (46_input.md R150 to R153). They read the key latch, never the keypad. -/

namespace Sys2Proof.Machine

/-- `SKP Vx` (R150). -/
def execSkpVx (x : RegIdx) (s : State) : Result :=
  .next (match keyOperand s x with
    | none => takeFault .keyIndexFault (.skpVx x) s
    | some k => s.advance.skipIf (s.keyHeld k))

/-- `SKNP Vx` (R151). -/
def execSknpVx (x : RegIdx) (s : State) : Result :=
  .next (match keyOperand s x with
    | none => takeFault .keyIndexFault (.sknpVx x) s
    | some k => s.advance.skipIf (!s.keyHeld k))

/-- `LD Vx, K` (R152): with no key held the advance is undone, so the same instruction is fetched again. -/
def execLdVxK (x : RegIdx) (s : State) : Result :=
  .next (match s.lowestKey with
    | none => s.advance.setPc (s.advance.pc - 2)
    | some k => s.advance.setReg x (BitVec.ofNat 8 k.val))

end Sys2Proof.Machine
end

