-- ==== Sys2Proof/Machine/MemBcd.lean ====
section
/-! DEFINITION. The index-register, memory and BCD instructions (44_memory_bcd.md R130 to R137). `I` is never changed by
an access (R130), and every check comes before the first write (20_memory.md R57, R58). -/

namespace Sys2Proof.Machine

/-- `LD I, nnn` (R131). -/
def execLdINnn (nnn : Addr) (s : State) : Result :=
  .next (s.advance.setI (zextAddr nnn))

/-- `ADD I, Vx` (R132): mod 2^16, `VF` unchanged (decision D26). -/
def execAddIVx (x : RegIdx) (s : State) : Result :=
  .next (s.advance.setI (s.ireg + zextByte (s.reg x)))

/-- `LD F, Vx` (R133): `I <- 5 * (V[x] & 0xF)`. -/
def execLdFVx (x : RegIdx) (s : State) : Result :=
  .next (s.advance.setI (BitVec.ofNat 16 (5 * (s.reg x &&& 0xF).toNat)))

/-- The three decimal digits of a byte, hundreds, tens, units (R134). -/
def bcdDigits (b : Byte) : List Byte :=
  [BitVec.ofNat 8 (b.toNat / 100), BitVec.ofNat 8 (b.toNat / 10 % 10), BitVec.ofNat 8 (b.toNat % 10)]

/-- The three stores of `LD B, Vx` (R134). -/
def storeBcd (x : RegIdx) (s : State) : State :=
  { s with mem := s.mem.writeAll (effAddr s 0) (bcdDigits (s.reg x)) }

/-- `LD B, Vx` (R134). -/
def execLdBVx (x : RegIdx) (s : State) : Result :=
  .next (checked (checkWrite (effAddr s 0) (effAddr s 2)) (.ldBVx x) s (storeBcd x s.advance))

/-- `for i = 0 to x: MemWrite(I + i, 1, V[i])` (R135). -/
def storeRegs (x : RegIdx) (s : State) : State :=
  (regsUpTo x).foldl (fun t i => t.writeByte (effAddr s i.val) (s.reg i)) s

/-- `LD [I], Vx` (R135). -/
def execLdMemVx (x : RegIdx) (s : State) : Result :=
  .next (checked (checkWrite (effAddr s 0) (effAddr s x.val)) (.ldMemVx x) s (storeRegs x s.advance))

/-- `for i = 0 to x: V[i] <- MemRead(I + i, 1)` (R136). -/
def loadRegs (x : RegIdx) (s : State) : State :=
  (regsUpTo x).foldl (fun t i => t.setReg i (s.readByte (effAddr s i.val))) s

/-- `LD Vx, [I]` (R136). -/
def execLdVxMem (x : RegIdx) (s : State) : Result :=
  .next (checked (checkRead (effAddr s x.val)) (.ldVxMem x) s (loadRegs x s.advance))

end Sys2Proof.Machine
end

