-- ==== Sys2Proof/Machine/Random.lean ====
section
/-! DEFINITION. The random instruction (43_random.md R125, R126). -/

namespace Sys2Proof.Machine

/-- The byte the random source delivers to the next `RND`: the next one the frame request supplies, a free value where it
supplies none (R125; log entry 4). -/
def State.rndByte (s : State) : Byte := s.rndIn.headD (Config.rnd s.draws)

/-- One draw is consumed (R126). -/
def State.consumeDraw (s : State) : State := { s with draws := s.draws + 1, rndIn := s.rndIn.tail }

/-- `RND Vx, kk` (R126): a draw is consumed even when `kk = 0`. -/
def execRndVxKk (x : RegIdx) (kk : Byte) (s : State) : Result :=
  .next (s.advance.consumeDraw.setReg x (s.rndByte &&& kk))

end Sys2Proof.Machine
end

