-- ==== Sys2Proof/Machine/TimerAccess.lean ====
section
/-! DEFINITION. The timer-access instructions (47_timer_access.md R155 to R158). -/

namespace Sys2Proof.Machine

/-- `LD Vx, DT` (R155). -/
def execLdVxDt (x : RegIdx) (s : State) : Result :=
  .next (s.advance.setReg x s.dt)

/-- `LD DT, Vx` (R156). -/
def execLdDtVx (x : RegIdx) (s : State) : Result :=
  .next (s.advance.setDt (s.reg x))

/-- `LD ST, Vx` (R157): the instruction itself emits no event. -/
def execLdStVx (x : RegIdx) (s : State) : Result :=
  .next (s.advance.setSt (s.reg x))

end Sys2Proof.Machine
end

