-- ==== Sys2Proof/Machine/Unknown.lean ====
section
/-! DEFINITION. The unknown-opcode handler (48_unknown.md R160). -/

namespace Sys2Proof.Machine

/-- `UNKNOWN`: `emit UnknownOpcode(a, w)` and nothing else; `PC` stays at the post-advance value (R160). -/
def execUnknown (w : Word) (s : State) : Result :=
  .next (s.advance.emit (.unknownOpcode s.pc w))

end Sys2Proof.Machine
end

