-- ==== Sys2Proof/Machine/Trace.lean ====
section
/-! DEFINITION. The mnemonic string of an instruction (30_encoding.md R81) and the trace record with its line of text
(R83, decision D21). -/

namespace Sys2Proof.Machine

/-- The upper-case hexadecimal digits (R81). -/
def hexChars : List Char := ['0', '1', '2', '3', '4', '5', '6', '7', '8', '9', 'A', 'B', 'C', 'D', 'E', 'F']

/-- The lowest `k` hexadecimal digits of a number, most significant first. -/
def hexDigits : Nat → Nat → List Char
  | 0, _ => []
  | k + 1, n => hexDigits k (n / 16) ++ [hexChars.getD (n % 16) '0']

/-- The same as text. -/
def hexText (k n : Nat) : String := String.ofList (hexDigits k n)

/-- A register: `V` and one digit (R81). -/
def regText (x : RegIdx) : String := "V" ++ hexText 1 x.val

/-- A byte immediate: `0x` and two digits (R81). -/
def byteText (b : Byte) : String := "0x" ++ hexText 2 b.toNat

/-- An address: `0x` and three digits (R81). -/
def addrText (a : Addr) : String := "0x" ++ hexText 3 a.toNat

/-- A nibble: `0x` and one digit (R81). -/
def nibbleText (n : Nibble) : String := "0x" ++ hexText 1 n.toNat

/-- Two operands: a comma and one space between them (R81). -/
def twoText (m a b : String) : String := m ++ " " ++ a ++ ", " ++ b

/-- The mnemonic string of R81. -/
def mnemonicText : Instr → String
  | .cls _ => "CLS"
  | .ret _ => "RET"
  | .jp nnn => "JP " ++ addrText nnn
  | .call nnn => "CALL " ++ addrText nnn
  | .seVxKk x kk => twoText "SE" (regText x) (byteText kk)
  | .sneVxKk x kk => twoText "SNE" (regText x) (byteText kk)
  | .seVxVy x y _ => twoText "SE" (regText x) (regText y)
  | .ldVxKk x kk => twoText "LD" (regText x) (byteText kk)
  | .addVxKk x kk => twoText "ADD" (regText x) (byteText kk)
  | .ldVxVy x y => twoText "LD" (regText x) (regText y)
  | .orVxVy x y => twoText "OR" (regText x) (regText y)
  | .andVxVy x y => twoText "AND" (regText x) (regText y)
  | .xorVxVy x y => twoText "XOR" (regText x) (regText y)
  | .addVxVy x y => twoText "ADD" (regText x) (regText y)
  | .subVxVy x y => twoText "SUB" (regText x) (regText y)
  | .shrVx x _ => "SHR " ++ regText x
  | .subnVxVy x y => twoText "SUBN" (regText x) (regText y)
  | .shlVx x _ => "SHL " ++ regText x
  | .sneVxVy x y _ => twoText "SNE" (regText x) (regText y)
  | .ldINnn nnn => twoText "LD" "I" (addrText nnn)
  | .jpV0Nnn nnn => twoText "JP" "V0" (addrText nnn)
  | .rndVxKk x kk => twoText "RND" (regText x) (byteText kk)
  | .drwVxVyN x y n => twoText "DRW" (regText x) (regText y) ++ ", " ++ nibbleText n
  | .skpVx x => "SKP " ++ regText x
  | .sknpVx x => "SKNP " ++ regText x
  | .ldVxDt x => twoText "LD" (regText x) "DT"
  | .ldVxK x => twoText "LD" (regText x) "K"
  | .ldDtVx x => twoText "LD" "DT" (regText x)
  | .ldStVx x => twoText "LD" "ST" (regText x)
  | .addIVx x => twoText "ADD" "I" (regText x)
  | .ldFVx x => twoText "LD" "F" (regText x)
  | .ldBVx x => twoText "LD" "B" (regText x)
  | .ldMemVx x => twoText "LD" "[I]" (regText x)
  | .ldVxMem x => twoText "LD" (regText x) "[I]"
  | .unknown w => "UNKNOWN 0x" ++ hexText 4 w.toNat

/-- The trace record of an instruction, from the state before it executes (R83). -/
def traceRecord (i : Instr) (s : State) : TraceRecord :=
  { pc := s.pc, v := s.v, ireg := s.ireg, dt := s.dt, st := s.st, mnemonic := mnemonicText i }

/-- The record as one line of text (R83). -/
def traceLine (r : TraceRecord) : String :=
  "PC:" ++ hexText 4 r.pc.toNat
    ++ String.join (allIdx.map fun i => " " ++ regText i ++ ":" ++ hexText 2 (r.v[i]).toNat)
    ++ " I:" ++ hexText 4 r.ireg.toNat ++ " DT:" ++ hexText 2 r.dt.toNat ++ " ST:" ++ hexText 2 r.st.toNat
    ++ " " ++ r.mnemonic

end Sys2Proof.Machine
end

