-- ==== Sys2Proof/Machine/FrameOps.lean ====
section
/-! DEFINITION. The phases of a frame other than an instruction's execution (60_exceptions.md R180 to R186): the frame
request, the key push, the use of a slot, the timer tick and the end of the frame. -/

namespace Sys2Proof.Machine

/-- The inputs of the next frame request: free values (R7, R181, R183; log entry 3). It names no random bytes, so every `RND`
of the frame draws a free one (log entry 4). -/
def State.nextRequest (s : State) : FrameRequest :=
  { keysIn := Config.keysIn s.frames, tickDue := Config.tickDue s.frames, debug := Config.debug s.frames }

/-- The start of a frame (R180 phase 1, R181): the key latch is replaced, and the frame has `IPF` slots and the random bytes
supplied for it. -/
def beginFrame (P : Config.Params) (q : FrameRequest) (s : State) : State :=
  { s with
    keys := q.keysIn
    frame := some { slots := P.ipf, tickDue := q.tickDue, debug := q.debug }
    frames := s.frames + 1
    rndIn := q.rnd }

/-- The step guard (40_step_cycle.md R90): `fault = None` and `PC < PC_LIMIT`. -/
def stepEnabled (P : Config.Params) (s : State) : Bool :=
  s.fault.isNone && decide (s.pc.toNat < P.pcLimit)

/-- One slot of the frame used by instruction `i`, and the trace record when the frame's `debug` is set (R91, R182). -/
def takeSlot (f : FrameRun) (i : Instr) (s : State) : State :=
  { s with
    frame := some { f with slots := f.slots - 1 }
    out := s.out ++ (if f.debug then [.trace (traceRecord i s)] else []) }

/-- Down by one, never below 0 (R184). -/
def countDown (b : Byte) : Byte := if b = 0 then 0 else b - 1

/-- `TimerTick()` (R184, R186): the sound edge is looked for before the decrement, and the latch remembers `ST` as just
decremented. -/
def timerTick (s : State) : State :=
  { s with
    out := s.out ++ (if s.st ≠ 0 ∧ s.soundPrev = false then [.soundEdge] else [])
    dt := countDown s.dt
    st := countDown s.st
    soundPrev := decide (countDown s.st ≠ 0) }

/-- The timer phase (R180 phase 3): skipped when a fault is latched or no tick is due. -/
def timerPhase (tickDue : Bool) (s : State) : State :=
  if s.fault.isNone && tickDue then timerTick s else s

/-- The end of a frame: the timer phase, then between frames again. -/
def endFrame (f : FrameRun) (s : State) : State :=
  { timerPhase f.tickDue s with frame := none }

end Sys2Proof.Machine
end

