-- ==== Sys2Proof/Machine/Frame.lean ====
section
/-! DEFINITION. The frame loop (60_exceptions.md R180 to R182) in two forms: `runFrame` is the spec's frame as one
transaction, `stepWith` its transitions one at a time, with the phase held in the state (log entry 2). -/

namespace Sys2Proof.Machine

/-- The word at `PC` (40_step_cycle.md R91, 20_memory.md R54), none when it does not lie in memory. -/
def fetch (s : State) : Option Word :=
  if s.pc.toNat + 1 < Config.memSize then some (s.readWord s.pc.toNat) else none

/-- The step of R91 in one slot of the frame `f`: fetch, decode, trace, then the instruction, whose meaning makes the
advance. -/
def slotStep (f : FrameRun) (s : State) : Result :=
  match fetch s with
  | some w => exec (decode w) (takeSlot f (decode w) s)
  | none => .fault (.fetchOutsideMemory (s.pc.toNat + 1))

/-- One transition of the machine: a frame request between frames, a slot of the frame while the guard holds, or the end
of the frame (R180). A frozen core answers a frame request with the state unchanged (R173). -/
def stepWith (P : Config.Params) (q : FrameRequest) (s : State) : Result :=
  match s.frame with
  | none =>
    if s.fault.isSome then .next s
    else if s.rom = .rejected then .refused .frameAfterRomTooLarge
    else .next (beginFrame P q s)
  | some f =>
    if f.slots ≠ 0 ∧ stepEnabled P s = true then slotStep f s
    else .next (endFrame f s)

/-- The instruction phase (R180 phase 2): at most `n` slots, the guard before every slot. -/
def runSlots (P : Config.Params) : Nat → State → Result
  | 0, s => .next s
  | n + 1, s =>
    match s.frame with
    | none => .next s
    | some f =>
      if stepEnabled P s then
        match slotStep f s with
        | .next t => runSlots P n t
        | .fault r => .fault r
        | .refused r => .refused r
      else .next s

/-- `k` transitions under the same parameters and frame inputs, stopping at the first fault or refusal. -/
def runSteps (P : Config.Params) (q : FrameRequest) : Nat → State → Result
  | 0, s => .next s
  | k + 1, s =>
    match stepWith P q s with
    | .next t => runSteps P q k t
    | .fault r => .fault r
    | .refused r => .refused r

/-- The last phase of the frame that is in progress. -/
def closeFrame (s : State) : State :=
  match s.frame with
  | none => s
  | some f => endFrame f s

/-- `Frame(keys_in, tick_due, debug)` as one transaction (R180). -/
def runFrame (P : Config.Params) (q : FrameRequest) (s : State) : Result :=
  if s.fault.isSome then .next s
  else if s.rom = .rejected then .refused .frameAfterRomTooLarge
  else
    match runSlots P P.ipf (beginFrame P q s) with
    | .next t => .next (closeFrame t)
    | .fault r => .fault r
    | .refused r => .refused r

end Sys2Proof.Machine
end

