-- ==== Sys2Proof/Machine/HostOps.lean ====
section
/-! DEFINITION. What the host does besides frames (60_exceptions.md R189 to R191, 70_reset_and_hazards.md R200 to R204):
reset, the ROM load, and the reads between frames. -/

namespace Sys2Proof.Machine

/-- The result of the ROM load (R203, R204; `notAdmitted` for a host that loads at another time, decision D29). -/
inductive LoadResult where
  | ok
  | romTooLarge
  | notAdmitted
  deriving DecidableEq, Repr

/-- The ROM load is admitted once, after reset and before the first frame (R191, decision D29). -/
def loadAdmitted (s : State) : Bool :=
  decide (s.rom = .notLoaded) && decide (s.frames = 0) && s.frame.isNone

/-- `Load(bytes)` (R203, R204): too long a sequence writes nothing. -/
def loadRom (bytes : List Byte) (s : State) : State × LoadResult :=
  if loadAdmitted s = false then (s, .notAdmitted)
  else if bytes.length > Config.romMax then ({ s with rom := .rejected }, .romTooLarge)
  else ({ s with mem := s.mem.writeAll Config.romBase bytes, rom := .loaded }, .ok)

/-- Reset: the creation of Machine State (R200), from whatever state; the parameters are no state and stay. -/
def resetCore (P : Config.Params) (_s : State) : State := State.resetWith P

/-- The framebuffer port (R189): the host reads it between frames. -/
def readFramebuffer (s : State) : Option Framebuffer :=
  if s.frame.isNone then some s.fb else none

/-- The fault read (R191): between frames. -/
def readFault (s : State) : Option (Option FaultRecord) :=
  if s.frame.isNone then some s.fault else none

/-- The events collected by the host (R190; log entry 10). -/
def collectEvents (s : State) : List Event × State := (s.out, { s with out := [] })

/-- The `info` of R170, which the latch does not hold: recomputed from the latched word and the frozen state (R172). -/
def faultInfo (s : State) : Option Nat :=
  match s.fault with
  | none => none
  | some r =>
    match r.cause with
    | .stackOverflow => none
    | .stackUnderflow => none
    | .fontWriteFault => some s.ireg.toNat
    | .keyIndexFault => some (s.reg (xField r.word)).toNat
    | .addressFault =>
      match decode r.word with
      | .ldBVx _ => some (effAddr s 2)
      | .ldMemVx x => some (effAddr s x.val)
      | .ldVxMem x => some (effAddr s x.val)
      | .drwVxVyN _ _ n => some (effAddr s (n.toNat - 1))
      | _ => none

end Sys2Proof.Machine
end

