-- ==== Sys2Proof/Machine/Step.lean ====
section
/-! DEFINITION. One step of the machine with the default parameters and the free inputs, and the host's way to place an
instruction. -/

namespace Sys2Proof.Machine

/-- One transition (Machine/Frame.lean), with the defaults of 00_scope.md R7 and the next frame's free inputs. -/
def step (s : State) : Host.Outcome State Fault Refusal :=
  stepWith Config.params s.nextRequest s

/-- The address step fetches its next instruction from: `PC`, or the entry point 0x200 for a parked `PC`, which no step
ever fetches at (log entry 13). -/
def State.fetchPc (s : State) : Word :=
  if s.pc.toNat < Config.params.pcLimit then s.pc else 0x0200

/-- The frame a placed instruction runs in: the one in progress if it has a slot left, else one with a single slot and no
tick and no trace (log entry 13). -/
def State.fetchFrame (s : State) : FrameRun :=
  match s.frame with
  | some f => if f.slots = 0 then { f with slots := 1 } else f
  | none => { slots := 1, tickDue := false, debug := false }

/-- `s` with an instruction placed where the very next step fetches it, and that step a slot of a frame. `w` is numbered
as spec/opcode_table.json numbers it; bits at and above `nbits` are 0 (log entry 13). -/
def State.withFetchWord (s : State) (nbits w : Nat) : State :=
  { s with
    pc := s.fetchPc
    fault := none
    frame := some s.fetchFrame
    mem := s.mem.writeAll s.fetchPc.toNat (bytesOfWord (BitVec.ofNat 16 (w % 2 ^ nbits))) }

end Sys2Proof.Machine
end

