-- ==== Sys2Proof/Safety.lean ====
section
/-! DEFINITION. What counts as a safe run: the named conditions of 40_step_cycle.md R95 and 10_state.md R37, the invariant
of 10_state.md R35, and the outcomes of a step. -/

namespace Sys2Proof.Machine

/-- Frozen: a fault is latched (60_exceptions.md R173); never a good end (R95). -/
def State.frozen (s : State) : Prop := s.fault ≠ none

/-- Parked: `PC >= PC_LIMIT` without a fault (R90, R95). -/
def State.parked (P : Config.Params) (s : State) : Prop := s.fault = none ∧ P.pcLimit ≤ s.pc.toNat

/-- Blocked awaiting a key (10_state.md R37, 46_input.md R153): a derived predicate, no state bit. -/
def State.blocked (P : Config.Params) (s : State) : Prop :=
  stepEnabled P s = true ∧ (∃ x, decode (s.readWord s.pc.toNat) = .ldVxK x) ∧ s.keys = 0

/-- Spinning: the word at `PC` is `JP PC` (R95 (c)), and a step is enabled. DESIGN CHOICE (log 25): R95 (c) names the word alone,
and leaves open whether a parked or frozen core with that word at `PC` is spinning too; here it is parked or frozen only. -/
def State.spinning (P : Config.Params) (s : State) : Prop :=
  stepEnabled P s = true ∧ ∃ nnn, decode (s.readWord s.pc.toNat) = .jp nnn ∧ zextAddr nnn = s.pc

/-- The font region reads as the table `FONT` (R33, R35, decision D4). -/
def Memory.fontIntact (font : Vector Byte 80) (m : Memory) : Prop := ∀ a : Fin 80, m.read a.val = font[a]

/-- The latched record points at the instruction just before `PC` (60_exceptions.md R172: `PC` keeps `a + 2`). -/
def State.latchCoherent (s : State) : Prop := ∀ r, s.fault = some r → s.pc = r.addr + 2

/-- The machine invariant, for every `FONT`: canonical memory, the font intact, a coherent fault latch. `0 <= SP <= 16` and one-bit pixels
hold by their types (R35). -/
def State.Inv (P : Config.Params) (s : State) : Prop :=
  s.mem.wf = true ∧ s.mem.fontIntact P.font ∧ s.latchCoherent

/-! ## Frames: the parts of the state and what an instruction may change -/

/-- The parts of the state a frame statement speaks of. -/
inductive Part where
  /-- `V0` to `VF`. -/
  | regs
  /-- `I`. -/
  | index
  /-- `PC`. -/
  | pc
  /-- `SP` and the stack slots. -/
  | stack
  /-- `DT`. -/
  | delay
  /-- `ST`. -/
  | sound
  /-- The key latch. -/
  | keys
  /-- The framebuffer. -/
  | pixels
  /-- Every byte of main memory. -/
  | memory
  /-- The fault latch. -/
  | latch
  /-- `sound_prev`. -/
  | soundPrev
  /-- The model's frame in progress and its count of frames. -/
  | sequencer
  /-- The random input: the bytes supplied and not yet consumed, and the model's count of draws. -/
  | draws
  /-- The model's record of the ROM load. -/
  | rom
  /-- The model's list of events emitted. -/
  | events
  deriving DecidableEq, Repr

/-- That a part is the same in two states. -/
def Part.same (s t : State) : Part → Prop
  | .regs => ∀ r : RegIdx, t.reg r = s.reg r
  | .index => t.ireg = s.ireg
  | .pc => t.pc = s.pc
  | .stack => t.sp = s.sp ∧ ∀ j : Fin 16, t.stack[j] = s.stack[j]
  | .delay => t.dt = s.dt
  | .sound => t.st = s.st
  | .keys => t.keys = s.keys
  | .pixels => ∀ px py, t.fb.pixel px py = s.fb.pixel px py
  | .memory => ∀ a : Nat, t.readByte a = s.readByte a
  | .latch => t.fault = s.fault
  | .soundPrev => t.soundPrev = s.soundPrev
  | .sequencer => t.frame = s.frame ∧ t.frames = s.frames
  | .draws => t.draws = s.draws ∧ t.rndIn = s.rndIn
  | .rom => t.rom = s.rom
  | .events => t.out = s.out

/-- Every part but the listed ones is the same in `t` as in `s`. -/
def keepsAllBut (ps : List Part) (s t : State) : Prop := ∀ p : Part, p ∉ ps → p.same s t

/-- The parts the spec lets an instruction change (R20 to R32, with the pseudocode of each rule: "State not named in an
instruction's pseudocode is not changed by it", R92). The latch stands where the rule lists a fault (R170). -/
def mayChange : Instr → List Part
  | .cls _ => [.pc, .pixels]
  | .ret _ => [.pc, .stack, .latch]
  | .call _ => [.pc, .stack, .latch]
  | .jp _ | .jpV0Nnn _ | .seVxKk _ _ | .sneVxKk _ _ | .seVxVy _ _ _ | .sneVxVy _ _ _ => [.pc]
  | .ldVxKk _ _ | .addVxKk _ _ | .ldVxVy _ _ | .orVxVy _ _ | .andVxVy _ _ | .xorVxVy _ _ | .addVxVy _ _
  | .subVxVy _ _ | .shrVx _ _ | .subnVxVy _ _ | .shlVx _ _ | .ldVxDt _ | .ldVxK _ => [.pc, .regs]
  | .rndVxKk _ _ => [.pc, .regs, .draws]
  | .ldINnn _ | .addIVx _ | .ldFVx _ => [.pc, .index]
  | .ldBVx _ | .ldMemVx _ => [.pc, .memory, .latch]
  | .ldVxMem _ => [.pc, .regs, .latch]
  | .drwVxVyN _ _ _ => [.pc, .regs, .pixels, .latch]
  | .skpVx _ | .sknpVx _ => [.pc, .latch]
  | .ldDtVx _ => [.pc, .delay]
  | .ldStVx _ => [.pc, .sound]
  | .unknown _ => [.pc, .events]

/-- The registers an instruction may write: its destination and, for the six flag-setting instructions, `VF` (R20, R21). -/
def mayWrite : Instr → List RegIdx
  | .ldVxKk x _ | .addVxKk x _ | .ldVxVy x _ | .orVxVy x _ | .andVxVy x _ | .xorVxVy x _ | .rndVxKk x _ | .ldVxDt x
  | .ldVxK x => [x]
  | .addVxVy x _ | .subVxVy x _ | .subnVxVy x _ | .shrVx x _ | .shlVx x _ => [x, vf]
  | .drwVxVyN _ _ _ => [vf]
  | .ldVxMem x => regsUpTo x
  | .cls _ | .ret _ | .jp _ | .call _ | .seVxKk _ _ | .sneVxKk _ _ | .seVxVy _ _ _ | .sneVxVy _ _ _ | .ldINnn _
  | .jpV0Nnn _ | .skpVx _ | .sknpVx _ | .ldDtVx _ | .ldStVx _ | .addIVx _ | .ldFVx _ | .ldBVx _ | .ldMemVx _
  | .unknown _ => []

/-- The instructions that can raise a fault (R94, R170). -/
def canRaise : Instr → Bool
  | .call _ | .ret _ | .skpVx _ | .sknpVx _ | .ldBVx _ | .ldMemVx _ | .ldVxMem _ | .drwVxVyN _ _ _ => true
  | .cls _ | .jp _ | .seVxKk _ _ | .sneVxKk _ _ | .seVxVy _ _ _ | .ldVxKk _ _ | .addVxKk _ _ | .ldVxVy _ _
  | .orVxVy _ _ | .andVxVy _ _ | .xorVxVy _ _ | .addVxVy _ _ | .subVxVy _ _ | .shrVx _ _ | .subnVxVy _ _
  | .shlVx _ _ | .sneVxVy _ _ _ | .ldINnn _ | .jpV0Nnn _ | .rndVxKk _ _ | .ldVxDt _ | .ldVxK _ | .ldDtVx _
  | .ldStVx _ | .addIVx _ | .ldFVx _ | .unknown _ => false

/-- The sprite of `DRW` at origin (ox, oy) with rows read at `I`: whether it has a 1 pixel on framebuffer pixel
(px, py) (R140, R142). -/
def spriteCovers (s : State) (ox oy n : Nat) (px : Fin 64) (py : Fin 32) : Prop :=
  ∃ r < n, ∃ c < 8, (s.readByte (s.ireg.toNat + r)).getLsbD (7 - c) = true ∧
    px.val = (ox + c) % 64 ∧ py.val = (oy + r) % 32

/-- The origin coordinate `DRW` reads from a register: `VF` has just been reset, so it gives 0 (R142, decision D14). -/
def originByte (s : State) (x : RegIdx) : Nat := if x = 15 then 0 else (s.reg x).toNat

/-- What an address reads as after `LD [I], Vx` (R135): `V[i]` at `I + i` for each `i <= x`. -/
def byteAfterBlock (s : State) (x : RegIdx) (a : Nat) : Byte :=
  if s.ireg.toNat ≤ a ∧ a ≤ s.ireg.toNat + x.val then s.reg (Fin.ofNat 16 (a - s.ireg.toNat)) else s.readByte a

/-- What an address reads as after `LD B, Vx` (R134): hundreds, tens and units of `Vx` at `I`, `I + 1`, `I + 2`. -/
def byteAfterBcd (s : State) (x : RegIdx) (a : Nat) : Byte :=
  if a = s.ireg.toNat then BitVec.ofNat 8 ((s.reg x).toNat / 100)
  else if a = s.ireg.toNat + 1 then BitVec.ofNat 8 ((s.reg x).toNat / 10 % 10)
  else if a = s.ireg.toNat + 2 then BitVec.ofNat 8 ((s.reg x).toNat % 10)
  else s.readByte a

/-- A step that neither faults nor is refused. -/
def Result.isNext : Result → Bool
  | .next _ => true
  | .fault _ => false
  | .refused _ => false

end Sys2Proof.Machine
end

