-- ==== Sys2Proof/Certificates/Slice0/Obligations.lean ====
section
/-! DEFINITION. The statements for the provers. Each docstring names the rule of spec/ it formalises. `keepsAllBut ps s t`
says that every part of the state outside `ps` is the same after as before; `log n` is notes/assumptions/n.md. -/

open Sys2Proof Sys2Proof.Machine

/-! ## Reset and the ROM load -/

/-- 10_state.md R34 and R33, for every `FONT`. `I`, `keys`, `fb`, `fault` and `sound_prev` rest on the spec's decisions D6,
D18 and D19 (log 21); the default font is log 7. -/
def Obligations.ResetLeavesTheSpecsValues : Prop :=
  (∀ P : Config.Params, ∀ s : State, s = State.resetWith P →
    (∀ r : RegIdx, s.reg r = 0x00) ∧ s.ireg = 0x0000 ∧ s.pc = 0x0200 ∧ s.sp = 0 ∧
    (∀ j : Fin 16, s.stack[j] = 0x0000) ∧ s.dt = 0x00 ∧ s.st = 0x00 ∧ s.keys = 0x0000 ∧
    (∀ j : Fin 2048, s.fb.at j = false) ∧ s.fault = none ∧ s.soundPrev = false ∧
    (∀ a : Fin 80, s.readByte a.val = P.font[a]) ∧ (∀ a : Nat, 0x050 ≤ a → a ≤ 0xFFF → s.readByte a = 0x00)) ∧
  State.reset = State.resetWith Config.params

/-- 70_reset_and_hazards.md R203: a sequence of at most 3584 bytes is copied to 0x200, everything else keeps its value.
That the load is admitted only before the first frame is the spec's decision D29 (log 11). -/
def Obligations.RomLoadCopiesVerbatim : Prop :=
  ∀ (bytes : List Byte) (s : State), loadAdmitted s = true → bytes.length ≤ 3584 →
    (loadRom bytes s).2 = .ok ∧
    (∀ (k : Nat) (h : k < bytes.length), (loadRom bytes s).1.readByte (0x200 + k) = bytes[k]) ∧
    (∀ a : Nat, ¬ (0x200 ≤ a ∧ a < 0x200 + bytes.length) → (loadRom bytes s).1.readByte a = s.readByte a) ∧
    keepsAllBut [.memory, .rom] s (loadRom bytes s).1

/-- 70_reset_and_hazards.md R204: a longer sequence is refused and writes nothing; the model then refuses every frame
request (log 11). -/
def Obligations.RomTooLargeWritesNothing : Prop :=
  ∀ (bytes : List Byte) (s : State), loadAdmitted s = true → s.fault = none → 3584 < bytes.length →
    (loadRom bytes s).2 = .romTooLarge ∧ keepsAllBut [.rom] s (loadRom bytes s).1 ∧
    step (loadRom bytes s).1 = .refused .frameAfterRomTooLarge

/-! ## Encoding -/

/-- 30_encoding.md R75, R76: some words written out bit by bit, of every family and every top nibble, decode to the instructions
they stand for. That the alias word 0x5127 is `SE V1, V2` rests on decision D10, and that its low nibble is kept on log 12. -/
def Obligations.WrittenWordsDecode : Prop :=
  decode 0b0000000011100000 = .cls 0 ∧ decode 0b0000000011101110 = .ret 0 ∧ decode 0b0001001000110100 = .jp 0x234 ∧
  decode 0b0010001100000000 = .call 0x300 ∧ decode 0b0011101001000010 = .seVxKk 0xA 0x42 ∧
  decode 0b0100101001000010 = .sneVxKk 0xA 0x42 ∧ decode 0b0101000100100111 = .seVxVy 1 2 7 ∧
  decode 0b0110000000001100 = .ldVxKk 0 0x0C ∧ decode 0b0111101000000001 = .addVxKk 0xA 0x01 ∧
  decode 0b1000101010110100 = .addVxVy 0xA 0xB ∧ decode 0b1001000100100000 = .sneVxVy 1 2 0 ∧
  decode 0b1010001000110100 = .ldINnn 0x234 ∧ decode 0b1011001100000000 = .jpV0Nnn 0x300 ∧
  decode 0b1100000100001111 = .rndVxKk 1 0x0F ∧ decode 0b1101011110100101 = .drwVxVyN 7 0xA 5 ∧
  decode 0b1110000110011110 = .skpVx 1 ∧ decode 0b1111000100000111 = .ldVxDt 1 ∧
  decode 0b1111001000010101 = .ldDtVx 2 ∧ decode 0b1111001100011000 = .ldStVx 3 ∧
  decode 0b1111100101100101 = .ldVxMem 9 ∧ decode 0b1000101010111111 = .unknown 0x8ABF

/-- 30_encoding.md R72 to R75: for every well-formed instruction, with every operand at every value, decoding its word
gives it back. -/
def Obligations.DecodeOfEncode : Prop :=
  ∀ i : Instr, i.wellFormed = true → decode (encode i) = i

/-- 30_encoding.md R78: every word decodes to one well-formed instruction. That no bit of the word is lost is the model's choice to
keep the bits the decoder does not examine in the constructor (log 12). -/
def Obligations.EncodeOfDecode : Prop :=
  ∀ w : Word, (decode w).wellFormed = true ∧ encode (decode w) = w

/-- 30_encoding.md R79: the words that decode to `UNKNOWN` are exactly those of the unknown space. -/
def Obligations.UnknownSpaceIsExact : Prop :=
  ∀ w v : Word, decode w = .unknown v ↔ (v = w ∧ unknownSpace w = true)

/-- 30_encoding.md R75: a word that matches a row's mask and match decodes to that row, so rows 1 to 34 do not overlap. -/
def Obligations.MatchingWordDecodesToItsRow : Prop :=
  ∀ (i : Instr) (w : Word), (∀ v, i ≠ .unknown v) → w &&& rowMask i = rowMatch i →
    rowMatch (decode w) = rowMatch i ∧ rowMask (decode w) = rowMask i

/-! ## The step and the frame loop -/

/-- 40_step_cycle.md R91, 20_memory.md R53: in a frame with a slot left, the guard of R90 holding, the bytes at `PC`
decode to `i` and the step is `exec i` on the state with that slot used and, if the frame's `debug` is set, the trace record of the
state before execution emitted. Between frames a step begins the next frame, and a frame without a slot left or with its guard
failing ends in its timer phase (60_exceptions.md R180). The model's choices in it: the advance of `PC` is in `exec` (log 1), the
slot in the model's `frame` (log 2), 0x0FFE is the default `PC_LIMIT` (decision D7, log 6), and a frame is begun also before any
ROM was loaded (log 11). -/
def Obligations.StepRunsTheDecodedInstruction : Prop :=
  (∀ (s : State) (f : FrameRun) (i : Instr) (rest : List Byte), s.frame = some f → f.slots ≠ 0 → s.fault = none →
    s.pc.toNat < 0x0FFE →
    decodeBytes (s.readByte s.pc.toNat :: s.readByte (s.pc.toNat + 1) :: rest) = .ok (i, rest) →
    step s = exec i (takeSlot f i s)) ∧
  (∀ (s : State) (f : FrameRun) (i : Instr),
    (takeSlot f i s).frame = some { f with slots := f.slots - 1 } ∧ (takeSlot f i s).frames = s.frames ∧
    (takeSlot f i s).out = s.out ++ (if f.debug then
      [.trace { pc := s.pc, v := s.v, ireg := s.ireg, dt := s.dt, st := s.st, mnemonic := mnemonicText i }] else []) ∧
    keepsAllBut [.sequencer, .events] s (takeSlot f i s)) ∧
  (∀ s : State, s.frame = none → s.fault = none → s.rom ≠ .rejected →
    step s = .next (beginFrame Config.params s.nextRequest s)) ∧
  (∀ (s : State) (f : FrameRun), s.frame = some f → (f.slots = 0 ∨ s.fault ≠ none ∨ 0x0FFE ≤ s.pc.toNat) →
    step s = .next (endFrame f s))

/-- 60_exceptions.md R181: the start of a frame replaces the whole key latch, and nothing else does, so every instruction
of a frame sees the same snapshot (10_state.md R28). That the start of a frame is a transition of its own, from `frame = none`, is
the model's choice (log 2); that a latched fault stops the push is the spec's decision D6 (R173). -/
def Obligations.KeysChangeOnlyAtFrameStart : Prop :=
  (∀ (P : Config.Params) (q : FrameRequest) (s : State) (k : KeyIdx),
    (beginFrame P q s).keyHeld k = q.keysIn.getLsbD k.val) ∧
  (∀ (P : Config.Params) (q : FrameRequest) (s t : State), stepWith P q s = .next t → t.keys ≠ s.keys →
    s.frame = none ∧ s.fault = none ∧ t.keys = q.keysIn)

/-- 60_exceptions.md R180: for every `IPF` and `PC_LIMIT`, running the machine's transitions from between frames reaches
what the frame does as one transaction, in at most `IPF + 2` of them. The transitions are the model's (log 2), and the frame is
admitted also before any ROM was loaded (log 11). -/
def Obligations.FrameIsItsTransitions : Prop :=
  ∀ (P : Config.Params) (q : FrameRequest) (s : State), s.frame = none → s.fault = none → s.rom ≠ .rejected →
    ∃ k, k ≤ P.ipf + 2 ∧ runSteps P q k s = runFrame P q s

/-- 60_exceptions.md R173 (decision D6): while a fault is latched nothing of the spec's state changes, a frame request does
nothing at all, and no step is enabled. -/
def Obligations.FrozenCoreChangesNothing : Prop :=
  ∀ (P : Config.Params) (q : FrameRequest) (s : State), s.fault ≠ none →
    stepEnabled P s = false ∧ runFrame P q s = .next s ∧
    ∃ t, stepWith P q s = .next t ∧ t.frames = s.frames ∧ (s.frame = none → t.frame = none) ∧
      keepsAllBut [.sequencer] s t

/-- 40_step_cycle.md R90 (decision D7), 60_exceptions.md R184, R186 (decision D18): a parked core takes the key push and the timer
phase, runs no instruction and emits nothing but the sound edge, for every `PC_LIMIT`. The random bytes of the request stay unread in
the model's `rndIn` (log 4); the frame is admitted also before any ROM was loaded (log 11). -/
def Obligations.ParkedCoreOnlyTicks : Prop :=
  ∀ (P : Config.Params) (q : FrameRequest) (s : State), s.frame = none → s.fault = none → s.rom ≠ .rejected →
    P.pcLimit ≤ s.pc.toNat →
    ∃ t, runFrame P q s = .next t ∧ t.keys = q.keysIn ∧ t.frame = none ∧
      t.dt = (if q.tickDue then countDown s.dt else s.dt) ∧ t.st = (if q.tickDue then countDown s.st else s.st) ∧
      t.soundPrev = (if q.tickDue then decide (countDown s.st ≠ 0) else s.soundPrev) ∧
      t.out = s.out ++ (if q.tickDue = true ∧ s.st ≠ 0 ∧ s.soundPrev = false then [.soundEdge] else []) ∧
      t.draws = s.draws ∧ t.rndIn = q.rnd ∧
      keepsAllBut [.keys, .delay, .sound, .soundPrev, .sequencer, .draws, .events] s t

/-- 46_input.md R153, 40_step_cycle.md R95 (c): a core blocked awaiting a key, or spinning at `JP PC`, uses a slot and
changes nothing of the spec's state. That a spinning core is one whose step is enabled is the model's choice (log 25). -/
def Obligations.BlockedOrSpinningCoreStaysSo : Prop :=
  ∀ (P : Config.Params) (q : FrameRequest) (s : State) (f : FrameRun), P.ok → s.frame = some f → f.slots ≠ 0 →
    (s.blocked P → ∃ t, stepWith P q s = .next t ∧ t.frame = some { f with slots := f.slots - 1 } ∧ t.blocked P ∧
      keepsAllBut [.sequencer, .events] s t) ∧
    (s.spinning P → ∃ t, stepWith P q s = .next t ∧ t.frame = some { f with slots := f.slots - 1 } ∧ t.spinning P ∧
      keepsAllBut [.sequencer, .events] s t)

/-! ## Timers -/

/-- 60_exceptions.md R184, R186 (decision D18): both timers go down by one and never below 0; the edge is looked for
before the decrement, and `sound_prev` remembers `ST` as just decremented. -/
def Obligations.TimerTickCountsDown : Prop :=
  ∀ s : State, (timerTick s).dt.toNat = s.dt.toNat - 1 ∧ (timerTick s).st.toNat = s.st.toNat - 1 ∧
    ((timerTick s).soundPrev = true ↔ (timerTick s).st ≠ 0) ∧
    (timerTick s).out = s.out ++ (if s.st ≠ 0 ∧ s.soundPrev = false then [.soundEdge] else []) ∧
    keepsAllBut [.delay, .sound, .soundPrev, .events] s (timerTick s)

/-- 60_exceptions.md R186 (decision D18): after `ST` has risen from zero, any number of further ticks emits exactly one
`SoundEdge`, at the first of them. -/
def Obligations.SoundEdgeOncePerRise : Prop :=
  ∀ (s : State) (k : Nat), s.st ≠ 0 → s.soundPrev = false → (timerTick^[k + 1] s).out = s.out ++ [.soundEdge]

/-- 60_exceptions.md R185, R180 phase 3, R184, R186 (decision D18): for every `IPF`, a frame that ends its instruction phase in `u`
without a fault and with the tick due lowers each timer of `u` by one (never below 0), emits `SoundEdge` exactly if `ST` is not 0
and `sound_prev` is clear, and sets `sound_prev` to whether the new `ST` is not 0. Otherwise the timer phase changes nothing. It
never changes anything else. The instruction phase and the end of the frame are the model's transitions (log 2). -/
def Obligations.TickDoesNotDependOnTheSlots : Prop :=
  ∀ (P : Config.Params) (q : FrameRequest) (s t : State), s.frame = none → s.fault = none →
    runFrame P q s = .next t →
    ∃ u, runSlots P P.ipf (beginFrame P q s) = .next u ∧ t.frame = none ∧
      (u.fault = none → q.tickDue = true →
        t.dt = countDown u.dt ∧ t.st = countDown u.st ∧ t.soundPrev = decide (countDown u.st ≠ 0) ∧
        t.out = u.out ++ (if u.st ≠ 0 ∧ u.soundPrev = false then [.soundEdge] else [])) ∧
      ((u.fault ≠ none ∨ q.tickDue = false) →
        t.dt = u.dt ∧ t.st = u.st ∧ t.soundPrev = u.soundPrev ∧ t.out = u.out) ∧
      keepsAllBut [.delay, .sound, .soundPrev, .sequencer, .events] u t

/-- 47_timer_access.md R158: no instruction moves a timer except `LD DT, Vx` and `LD ST, Vx`, which set it to `Vx`. -/
def Obligations.InstructionsOnlySetTimers : Prop :=
  ∀ (i : Instr) (s t : State), exec i s = .next t →
    (t.dt ≠ s.dt → ∃ x, i = .ldDtVx x ∧ t.dt = s.reg x) ∧ (t.st ≠ s.st → ∃ x, i = .ldStVx x ∧ t.st = s.reg x)

/-! ## What every instruction keeps -/

/-- 00_scope.md R10: no instruction is refused. That an instruction which raises a fault answers a next state too, so that none stops
the machine, is the model's choice (log 18). -/
def Obligations.NoInstructionIsRefused : Prop :=
  ∀ (i : Instr) (s : State), ∃ t, exec i s = .next t

/-- 40_step_cycle.md R92: state not named in an instruction's pseudocode is not changed by it. -/
def Obligations.InstructionsKeepTheRest : Prop :=
  ∀ (i : Instr) (s t : State), exec i s = .next t → keepsAllBut (mayChange i) s t

/-- 10_state.md R20, R21: an instruction writes its destination registers and `VF` where R21 lists it, and no other. -/
def Obligations.RegistersChangeOnlyAsDestinations : Prop :=
  ∀ (i : Instr) (s t : State) (r : RegIdx), exec i s = .next t → r ∉ mayWrite i → t.reg r = s.reg r

/-- 20_memory.md R58, R65 (decisions D3 and D4): a byte of memory changes only by `LD B, Vx` and `LD [I], Vx`, inside
their range, and never below 0x050 or above 0xFFF. -/
def Obligations.MemoryChangesOnlyByStores : Prop :=
  ∀ (i : Instr) (s t : State) (a : Nat), exec i s = .next t → t.readByte a ≠ s.readByte a →
    0x050 ≤ a ∧ a ≤ 0xFFF ∧ s.ireg.toNat ≤ a ∧
    ((∃ x, i = .ldBVx x ∧ a ≤ s.ireg.toNat + 2) ∨ (∃ x : RegIdx, i = .ldMemVx x ∧ a ≤ s.ireg.toNat + x.val))

/-- 40_step_cycle.md R94, 60_exceptions.md R172 (decision D6): only the instructions R94 lists can raise; a raise latches
the address and the word, keeps the advanced `PC`, and changes nothing else. -/
def Obligations.RaisingChangesOnlyLatchAndPc : Prop :=
  ∀ (i : Instr) (s t : State), s.fault = none → exec i s = .next t → t.fault ≠ none →
    canRaise i = true ∧ t.pc = s.pc + 2 ∧ (∃ c, t.fault = some { cause := c, addr := s.pc, word := encode i }) ∧
    keepsAllBut [.pc, .latch] s t

/-- 60_exceptions.md R190: the events are outputs only; an instruction does the same whatever was emitted before. -/
def Obligations.EventsAreNeverRead : Prop :=
  ∀ (i : Instr) (s t : State) (es : List Event), exec i s = .next t →
    ∃ u, exec i { s with out := es } = .next u ∧ keepsAllBut [.events] t u

/-- 10_state.md R35, 60_exceptions.md R172 (decisions D4 and D6; the canonical form is log 8): every transition, under every
parameters and inputs, keeps memory canonical, the font intact and the fault latch coherent. -/
def Obligations.EveryStepKeepsTheInvariant : Prop :=
  ∀ (P : Config.Params) (q : FrameRequest) (s t : State), s.Inv P → stepWith P q s = .next t → t.Inv P

/-- The invariant holds at reset, for every `FONT` (10_state.md R33, R34, R35). -/
def Obligations.ResetMeetsTheInvariant : Prop :=
  State.reset.Inv Config.params ∧ ∀ P : Config.Params, (State.resetWith P).Inv P

/-! ## Control flow -/

/-- 41_control_flow.md R100. -/
def Obligations.JpSetsPc : Prop :=
  ∀ (nnn : Addr) (s : State), ∃ t, exec (.jp nnn) s = .next t ∧ t.pc.toNat = nnn.toNat ∧ keepsAllBut [.pc] s t

/-- 41_control_flow.md R101 with `SP < 16`: the post-advance `PC` is pushed. -/
def Obligations.CallPushesAndJumps : Prop :=
  ∀ (nnn : Addr) (s : State), s.sp.val < 16 →
    ∃ t, exec (.call nnn) s = .next t ∧ t.pc.toNat = nnn.toNat ∧ t.sp.val = s.sp.val + 1 ∧
      (∀ j : Fin 16, t.stack[j] = if j.val = s.sp.val then s.pc + 2 else s.stack[j]) ∧ keepsAllBut [.pc, .stack] s t

/-- 41_control_flow.md R102 with `SP > 0`, bits 11:8 ignored (decision D10); the popped slot keeps its value (D22). -/
def Obligations.RetPopsAndJumps : Prop :=
  ∀ (u : Nibble) (s : State) (j : Fin 16), s.sp.val = j.val + 1 →
    ∃ t, exec (.ret u) s = .next t ∧ t.pc = s.stack[j] ∧ t.sp.val = j.val ∧
      (∀ k : Fin 16, t.stack[k] = s.stack[k]) ∧ keepsAllBut [.pc, .stack] s t

/-- 41_control_flow.md R101, R102 with the stack full or empty, 46_input.md R150, R151 with `Vx` above 15 (decisions D1, D2,
D5, D6). -/
def Obligations.StackAndKeyFaultsAreLatched : Prop :=
  (∀ (nnn : Addr) (s : State), s.sp = 16 → ∃ t, exec (.call nnn) s = .next t ∧ t.pc = s.pc + 2 ∧
    t.fault = some { cause := .stackOverflow, addr := s.pc, word := encode (.call nnn) } ∧
    keepsAllBut [.pc, .latch] s t) ∧
  (∀ (u : Nibble) (s : State), s.sp = 0 → ∃ t, exec (.ret u) s = .next t ∧ t.pc = s.pc + 2 ∧
    t.fault = some { cause := .stackUnderflow, addr := s.pc, word := encode (.ret u) } ∧
    keepsAllBut [.pc, .latch] s t) ∧
  (∀ (x : RegIdx) (s : State), (s.reg x).toNat > 15 →
    (∃ t, exec (.skpVx x) s = .next t ∧ t.pc = s.pc + 2 ∧
      t.fault = some { cause := .keyIndexFault, addr := s.pc, word := encode (.skpVx x) } ∧
      keepsAllBut [.pc, .latch] s t) ∧
    (∃ t, exec (.sknpVx x) s = .next t ∧ t.pc = s.pc + 2 ∧
      t.fault = some { cause := .keyIndexFault, addr := s.pc, word := encode (.sknpVx x) } ∧
      keepsAllBut [.pc, .latch] s t))

/-- 41_control_flow.md R103, R104. -/
def Obligations.SkipsCompareWithImmediate : Prop :=
  (∀ (x : RegIdx) (kk : Byte) (s : State), ∃ t, exec (.seVxKk x kk) s = .next t ∧
    t.pc = (if (s.reg x).toNat = kk.toNat then s.pc + 4 else s.pc + 2) ∧ keepsAllBut [.pc] s t) ∧
  (∀ (x : RegIdx) (kk : Byte) (s : State), ∃ t, exec (.sneVxKk x kk) s = .next t ∧
    t.pc = (if (s.reg x).toNat = kk.toNat then s.pc + 2 else s.pc + 4) ∧ keepsAllBut [.pc] s t)

/-- 41_control_flow.md R105, R106, the low nibble ignored (decision D10). -/
def Obligations.SkipsCompareRegisters : Prop :=
  (∀ (x y : RegIdx) (u : Nibble) (s : State), ∃ t, exec (.seVxVy x y u) s = .next t ∧
    t.pc = (if (s.reg x).toNat = (s.reg y).toNat then s.pc + 4 else s.pc + 2) ∧ keepsAllBut [.pc] s t) ∧
  (∀ (x y : RegIdx) (u : Nibble) (s : State), ∃ t, exec (.sneVxVy x y u) s = .next t ∧
    t.pc = (if (s.reg x).toNat = (s.reg y).toNat then s.pc + 2 else s.pc + 4) ∧ keepsAllBut [.pc] s t)

/-- 41_control_flow.md R107: the sum is not reduced modulo 4096 and never wraps. -/
def Obligations.IndexedJumpAddsV0 : Prop :=
  ∀ (nnn : Addr) (s : State), ∃ t, exec (.jpV0Nnn nnn) s = .next t ∧ t.pc.toNat = nnn.toNat + (s.reg 0).toNat ∧
    keepsAllBut [.pc] s t

/-! ## Arithmetic and logic -/

/-- 42_arithmetic.md R110. -/
def Obligations.LoadImmediateSetsVx : Prop :=
  ∀ (x : RegIdx) (kk : Byte) (s : State), ∃ t, exec (.ldVxKk x kk) s = .next t ∧ t.pc = s.pc + 2 ∧
    (∀ r : RegIdx, t.reg r = if r = x then kk else s.reg r) ∧ keepsAllBut [.pc, .regs] s t

/-- 42_arithmetic.md R111: the sum wraps and no flag is written. -/
def Obligations.AddImmediateWrapsWithoutFlag : Prop :=
  ∀ (x : RegIdx) (kk : Byte) (s : State), ∃ t, exec (.addVxKk x kk) s = .next t ∧ t.pc = s.pc + 2 ∧
    (∀ r : RegIdx, (t.reg r).toNat = if r = x then ((s.reg x).toNat + kk.toNat) % 256 else (s.reg r).toNat) ∧
    keepsAllBut [.pc, .regs] s t

/-- 42_arithmetic.md R112 (decision D25, log 16). -/
def Obligations.RegisterMoveCopiesVy : Prop :=
  ∀ (x y : RegIdx) (s : State), ∃ t, exec (.ldVxVy x y) s = .next t ∧ t.pc = s.pc + 2 ∧
    (∀ r : RegIdx, t.reg r = if r = x then s.reg y else s.reg r) ∧ keepsAllBut [.pc, .regs] s t

/-- 42_arithmetic.md R113, R114, R115: bit by bit, and no flag is written. -/
def Obligations.BitwiseOperationsWriteNoFlag : Prop :=
  (∀ (x y : RegIdx) (s : State), ∃ t, exec (.orVxVy x y) s = .next t ∧ t.pc = s.pc + 2 ∧
    (∀ b < 8, (t.reg x).getLsbD b = ((s.reg x).getLsbD b || (s.reg y).getLsbD b)) ∧
    (∀ r : RegIdx, r ≠ x → t.reg r = s.reg r) ∧ keepsAllBut [.pc, .regs] s t) ∧
  (∀ (x y : RegIdx) (s : State), ∃ t, exec (.andVxVy x y) s = .next t ∧ t.pc = s.pc + 2 ∧
    (∀ b < 8, (t.reg x).getLsbD b = ((s.reg x).getLsbD b && (s.reg y).getLsbD b)) ∧
    (∀ r : RegIdx, r ≠ x → t.reg r = s.reg r) ∧ keepsAllBut [.pc, .regs] s t) ∧
  (∀ (x y : RegIdx) (s : State), ∃ t, exec (.xorVxVy x y) s = .next t ∧ t.pc = s.pc + 2 ∧
    (∀ b < 8, (t.reg x).getLsbD b = ((s.reg x).getLsbD b ^^ (s.reg y).getLsbD b)) ∧
    (∀ r : RegIdx, r ≠ x → t.reg r = s.reg r) ∧ keepsAllBut [.pc, .regs] s t)

/-- 42_arithmetic.md R116: the carry is written last, so it is what remains when `x = 15`. -/
def Obligations.AddRegistersSetsCarry : Prop :=
  ∀ (x y : RegIdx) (s : State), ∃ t, exec (.addVxVy x y) s = .next t ∧ t.pc = s.pc + 2 ∧
    (t.reg 15).toNat = (if (s.reg x).toNat + (s.reg y).toNat > 255 then 1 else 0) ∧
    (x ≠ 15 → (t.reg x).toNat = ((s.reg x).toNat + (s.reg y).toNat) % 256) ∧
    (∀ r : RegIdx, r ≠ x → r ≠ 15 → t.reg r = s.reg r) ∧ keepsAllBut [.pc, .regs] s t

/-- 42_arithmetic.md R117: the flag is the complement of the borrow and is written last. -/
def Obligations.SubtractSetsNotBorrow : Prop :=
  ∀ (x y : RegIdx) (s : State), ∃ t, exec (.subVxVy x y) s = .next t ∧ t.pc = s.pc + 2 ∧
    (t.reg 15).toNat = (if (s.reg x).toNat ≥ (s.reg y).toNat then 1 else 0) ∧
    (x ≠ 15 → ((t.reg x).toNat : Int) = (((s.reg x).toNat : Int) - ((s.reg y).toNat : Int)) % 256) ∧
    (∀ r : RegIdx, r ≠ x → r ≠ 15 → t.reg r = s.reg r) ∧ keepsAllBut [.pc, .regs] s t

/-- 42_arithmetic.md R119 (decision D13: the flag last). -/
def Obligations.ReverseSubtractSetsNotBorrow : Prop :=
  ∀ (x y : RegIdx) (s : State), ∃ t, exec (.subnVxVy x y) s = .next t ∧ t.pc = s.pc + 2 ∧
    (t.reg 15).toNat = (if (s.reg y).toNat ≥ (s.reg x).toNat then 1 else 0) ∧
    (x ≠ 15 → ((t.reg x).toNat : Int) = (((s.reg y).toNat : Int) - ((s.reg x).toNat : Int)) % 256) ∧
    (∀ r : RegIdx, r ≠ x → r ≠ 15 → t.reg r = s.reg r) ∧ keepsAllBut [.pc, .regs] s t

/-- 42_arithmetic.md R118, R120 (decisions D12, D13: in place, the flag first): the results and flags of the two shifts,
`SHR VF` leaving 0 and `SHL VF` leaving 0 or 2. -/
def Obligations.ShiftsWorkInPlace : Prop :=
  (∀ (x : RegIdx) (u : Nibble) (s : State), ∃ t, exec (.shrVx x u) s = .next t ∧ t.pc = s.pc + 2 ∧
    (x ≠ 15 → (t.reg x).toNat = (s.reg x).toNat / 2 ∧ (t.reg 15).toNat = (s.reg x).toNat % 2) ∧
    (x = 15 → (t.reg 15).toNat = 0) ∧
    (∀ r : RegIdx, r ≠ x → r ≠ 15 → t.reg r = s.reg r) ∧ keepsAllBut [.pc, .regs] s t) ∧
  (∀ (x : RegIdx) (u : Nibble) (s : State), ∃ t, exec (.shlVx x u) s = .next t ∧ t.pc = s.pc + 2 ∧
    (x ≠ 15 → (t.reg x).toNat = 2 * (s.reg x).toNat % 256 ∧ (t.reg 15).toNat = (s.reg x).toNat / 128) ∧
    (x = 15 → (t.reg 15).toNat = if (s.reg 15).toNat ≥ 0x80 then 2 else 0) ∧
    (∀ r : RegIdx, r ≠ x → r ≠ 15 → t.reg r = s.reg r) ∧ keepsAllBut [.pc, .regs] s t)

/-- 42_arithmetic.md R121 (its reading of the shifts rests on decision D12): for `x` other than 15, the result and the
captured bit give the operand back, for `SHR` and for `SHL`. -/
def Obligations.ShiftsLoseNoBit : Prop :=
  ∀ (x : RegIdx) (u : Nibble) (s : State), x ≠ 15 →
    (∀ t, exec (.shrVx x u) s = .next t → ((t.reg x) <<< 1) ||| t.reg 15 = s.reg x) ∧
    (∀ t, exec (.shlVx x u) s = .next t → ((t.reg 15) <<< 7) ||| ((t.reg x) >>> 1) = s.reg x)

/-! ## The random instruction -/

/-- 43_random.md R125, R126: the drawn byte under the mask, and one draw consumed even when `kk = 0`. The byte is the next one the
frame request supplies, and a free value where it supplies none; the list of supplied bytes, the count of draws and the free value
are the model's choice (log 4), and the statement holds for every value of them. -/
def Obligations.RandomByteIsMasked : Prop :=
  (∀ (x : RegIdx) (kk : Byte) (s : State), ∃ t, exec (.rndVxKk x kk) s = .next t ∧ t.pc = s.pc + 2 ∧
    t.draws = s.draws + 1 ∧ t.rndIn = s.rndIn.tail ∧
    (∀ r : RegIdx, t.reg r = if r = x then s.rndIn.headD (Config.rnd s.draws) &&& kk else s.reg r) ∧
    keepsAllBut [.pc, .regs, .draws] s t) ∧
  (∀ (P : Config.Params) (q : FrameRequest) (s : State),
    (beginFrame P q s).rndIn = q.rnd ∧ (beginFrame P q s).draws = s.draws)

/-! ## Index register and memory -/

/-- 44_memory_bcd.md R131, R133. -/
def Obligations.IndexLoads : Prop :=
  (∀ (nnn : Addr) (s : State), ∃ t, exec (.ldINnn nnn) s = .next t ∧ t.pc = s.pc + 2 ∧ t.ireg.toNat = nnn.toNat ∧
    keepsAllBut [.pc, .index] s t) ∧
  (∀ (x : RegIdx) (s : State), ∃ t, exec (.ldFVx x) s = .next t ∧ t.pc = s.pc + 2 ∧
    t.ireg.toNat = 5 * ((s.reg x).toNat % 16) ∧ keepsAllBut [.pc, .index] s t)

/-- 44_memory_bcd.md R132 (decision D26: `VF` unchanged). -/
def Obligations.IndexAddWrapsWithoutFlag : Prop :=
  ∀ (x : RegIdx) (s : State), ∃ t, exec (.addIVx x) s = .next t ∧ t.pc = s.pc + 2 ∧
    t.ireg.toNat = (s.ireg.toNat + (s.reg x).toNat) % 65536 ∧ keepsAllBut [.pc, .index] s t

/-- 44_memory_bcd.md R134 where its check passes (decisions D3, D4). -/
def Obligations.BcdStoresThreeDigits : Prop :=
  ∀ (x : RegIdx) (s : State), 0x050 ≤ s.ireg.toNat → s.ireg.toNat + 2 ≤ 0xFFF →
    ∃ t, exec (.ldBVx x) s = .next t ∧ t.pc = s.pc + 2 ∧
      (t.readByte s.ireg.toNat).toNat = (s.reg x).toNat / 100 ∧
      (t.readByte (s.ireg.toNat + 1)).toNat = (s.reg x).toNat / 10 % 10 ∧
      (t.readByte (s.ireg.toNat + 2)).toNat = (s.reg x).toNat % 10 ∧
      (∀ a : Nat, (a < s.ireg.toNat ∨ s.ireg.toNat + 2 < a) → t.readByte a = s.readByte a) ∧
      keepsAllBut [.pc, .memory] s t

/-- 44_memory_bcd.md R135 where its check passes (decisions D3, D4). -/
def Obligations.BlockStoreWritesV0ToVx : Prop :=
  ∀ (x : RegIdx) (s : State), 0x050 ≤ s.ireg.toNat → s.ireg.toNat + x.val ≤ 0xFFF →
    ∃ t, exec (.ldMemVx x) s = .next t ∧ t.pc = s.pc + 2 ∧
      (∀ r : RegIdx, r ≤ x → t.readByte (s.ireg.toNat + r.val) = s.reg r) ∧
      (∀ a : Nat, (a < s.ireg.toNat ∨ s.ireg.toNat + x.val < a) → t.readByte a = s.readByte a) ∧
      keepsAllBut [.pc, .memory] s t

/-- 44_memory_bcd.md R136 where its check passes (decision D3). -/
def Obligations.BlockLoadReadsV0ToVx : Prop :=
  ∀ (x : RegIdx) (s : State), s.ireg.toNat + x.val ≤ 0xFFF →
    ∃ t, exec (.ldVxMem x) s = .next t ∧ t.pc = s.pc + 2 ∧
      (∀ r : RegIdx, t.reg r = if r ≤ x then s.readByte (s.ireg.toNat + r.val) else s.reg r) ∧
      keepsAllBut [.pc, .regs] s t

/-- 20_memory.md R57, R58, 60_exceptions.md R170 (decisions D3, D4, D6): when each memory instruction faults, and with
which code; code 3 goes before code 4. -/
def Obligations.MemoryFaultsAreLatched : Prop :=
  ∀ (i : Instr) (s : State) (hi : Nat) (isStore : Bool),
    ((∃ x, i = .ldBVx x ∧ hi = s.ireg.toNat + 2 ∧ isStore = true) ∨
     (∃ x : RegIdx, i = .ldMemVx x ∧ hi = s.ireg.toNat + x.val ∧ isStore = true) ∨
     (∃ x : RegIdx, i = .ldVxMem x ∧ hi = s.ireg.toNat + x.val ∧ isStore = false) ∨
     (∃ x y n, i = .drwVxVyN x y n ∧ n ≠ 0 ∧ hi = s.ireg.toNat + n.toNat - 1 ∧ isStore = false)) →
    (hi > 0xFFF → ∃ t, exec i s = .next t ∧ t.pc = s.pc + 2 ∧
      t.fault = some { cause := .addressFault, addr := s.pc, word := encode i } ∧ keepsAllBut [.pc, .latch] s t) ∧
    (hi ≤ 0xFFF → isStore = true → s.ireg.toNat < 0x050 → ∃ t, exec i s = .next t ∧ t.pc = s.pc + 2 ∧
      t.fault = some { cause := .fontWriteFault, addr := s.pc, word := encode i } ∧ keepsAllBut [.pc, .latch] s t)

/-- 44_memory_bcd.md R137: storing `V0 .. Vx` and loading them back leaves every register as it was, and loading then
storing leaves memory as it was. -/
def Obligations.BlockTransfersRoundTrip : Prop :=
  ∀ (x : RegIdx) (s t u : State), 0x050 ≤ s.ireg.toNat → s.ireg.toNat + x.val ≤ 0xFFF →
    (exec (.ldMemVx x) s = .next t → exec (.ldVxMem x) t = .next u → ∀ r : RegIdx, u.reg r = s.reg r) ∧
    (exec (.ldVxMem x) s = .next t → exec (.ldMemVx x) t = .next u → ∀ a : Nat, u.readByte a = s.readByte a)

/-- 20_memory.md R63, R53 (decision D28), where the checks of R58 pass (decisions D3, D4): after either store the very next fetch
reads the word at the advanced `PC` with the stored bytes in it, whether the store reaches both of its bytes, one or none. -/
def Obligations.StoreIsSeenByTheNextFetch : Prop :=
  (∀ (x : RegIdx) (s : State), 0x050 ≤ s.ireg.toNat → s.ireg.toNat + x.val ≤ 0xFFF → s.pc.toNat + 3 ≤ 0xFFF →
    ∃ t, exec (.ldMemVx x) s = .next t ∧
      fetch t = some (wordOfBytes (byteAfterBlock s x (s.pc.toNat + 2)) (byteAfterBlock s x (s.pc.toNat + 3)))) ∧
  (∀ (x : RegIdx) (s : State), 0x050 ≤ s.ireg.toNat → s.ireg.toNat + 2 ≤ 0xFFF → s.pc.toNat + 3 ≤ 0xFFF →
    ∃ t, exec (.ldBVx x) s = .next t ∧
      fetch t = some (wordOfBytes (byteAfterBcd s x (s.pc.toNat + 2)) (byteAfterBcd s x (s.pc.toNat + 3))))

/-! ## Display -/

/-- 45_display.md R141: every pixel 0, `VF` untouched. That bits 11:8 are ignored is decision D10, and that they stand in the
constructor is log 12. -/
def Obligations.ClsClearsTheFramebuffer : Prop :=
  ∀ (u : Nibble) (s : State), ∃ t, exec (.cls u) s = .next t ∧ t.pc = s.pc + 2 ∧
    (∀ j : Fin 2048, t.fb.at j = false) ∧ keepsAllBut [.pc, .pixels] s t

/-- 45_display.md R142 where its check passes (decisions D3, D14, D15): every pixel is XORed with the sprite on the torus,
and `VF` is 1 exactly when a lit pixel was turned off. -/
def Obligations.DrawXorsTheSprite : Prop :=
  ∀ (x y : RegIdx) (n : Nibble) (s : State), (n = 0 ∨ s.ireg.toNat + n.toNat - 1 ≤ 0xFFF) →
    ∃ t, exec (.drwVxVyN x y n) s = .next t ∧ t.pc = s.pc + 2 ∧
      (∀ px py, t.fb.pixel px py = true ↔
        ¬ (s.fb.pixel px py = true ↔ spriteCovers s (originByte s x) (originByte s y) n.toNat px py)) ∧
      (t.reg 15 = 0 ∨ t.reg 15 = 1) ∧
      (t.reg 15 = 1 ↔ ∃ px py, s.fb.pixel px py = true ∧
        spriteCovers s (originByte s x) (originByte s y) n.toNat px py) ∧
      (∀ r : RegIdx, r ≠ 15 → t.reg r = s.reg r) ∧ keepsAllBut [.pc, .regs, .pixels] s t

/-- 45_display.md R142, first half of R143: the same sprite drawn twice restores the framebuffer. By R142 the second draw
collides exactly when a 1 pixel of the sprite met an unlit pixel before the first draw; where the region was clear, that is
when the sprite has a 1 pixel at all (log 19: the last sentences of R143 say more than R142 gives). -/
def Obligations.DrawIsItsOwnInverse : Prop :=
  ∀ (x y : RegIdx) (n : Nibble) (s t u : State), (n = 0 ∨ s.ireg.toNat + n.toNat - 1 ≤ 0xFFF) →
    exec (.drwVxVyN x y n) s = .next t → exec (.drwVxVyN x y n) t = .next u →
    (∀ px py, u.fb.pixel px py = s.fb.pixel px py) ∧
    (u.reg 15 = 1 ↔ ∃ px py, s.fb.pixel px py = false ∧
      spriteCovers s (originByte s x) (originByte s y) n.toNat px py) ∧
    ((∀ px py, spriteCovers s (originByte s x) (originByte s y) n.toNat px py → s.fb.pixel px py = false) →
      (u.reg 15 = 1 ↔ ∃ r < n.toNat, s.readByte (s.ireg.toNat + r) ≠ 0))

/-- The sentence of 45_display.md R143 "in general, after the second of two identical draws `VF = 1` if and only if the
sprite has at least one 1 pixel", which R142 does not give: where the first draw turned every sprite pixel off, the second
turns them on without a collision (log 19). Expected to fail. -/
def Obligations.SecondDrawCollidesWheneverSpriteIsNonzero : Prop :=
  ∀ (x y : RegIdx) (n : Nibble) (s t u : State), (n = 0 ∨ s.ireg.toNat + n.toNat - 1 ≤ 0xFFF) →
    exec (.drwVxVyN x y n) s = .next t → exec (.drwVxVyN x y n) t = .next u →
    (u.reg 15 = 1 ↔ ∃ r < n.toNat, s.readByte (s.ireg.toNat + r) ≠ 0)

/-! ## Input -/

/-- 46_input.md R150, R151 with `Vx` at most 15. -/
def Obligations.KeySkipsTestTheLatch : Prop :=
  ∀ (x : RegIdx) (s : State), (s.reg x).toNat ≤ 15 →
    (∃ t, exec (.skpVx x) s = .next t ∧
      t.pc = (if s.keys.getLsbD (s.reg x).toNat = true then s.pc + 4 else s.pc + 2) ∧ keepsAllBut [.pc] s t) ∧
    (∃ t, exec (.sknpVx x) s = .next t ∧
      t.pc = (if s.keys.getLsbD (s.reg x).toNat = true then s.pc + 2 else s.pc + 4) ∧ keepsAllBut [.pc] s t)

/-- 46_input.md R152: with no key held the whole state is exactly as before; else the lowest held key is loaded. -/
def Obligations.KeyWaitLoadsTheLowestKey : Prop :=
  (∀ (x : RegIdx) (s : State), s.keys = 0 → exec (.ldVxK x) s = .next s) ∧
  (∀ (x : RegIdx) (s : State), s.keys ≠ 0 → ∃ (t : State) (k : Nat), exec (.ldVxK x) s = .next t ∧ t.pc = s.pc + 2 ∧
    k < 16 ∧ s.keys.getLsbD k = true ∧ (∀ j < k, s.keys.getLsbD j = false) ∧ (t.reg x).toNat = k ∧
    (∀ r : RegIdx, r ≠ x → t.reg r = s.reg r) ∧ keepsAllBut [.pc, .regs] s t)

/-! ## Timer access and the unknown handler -/

/-- 47_timer_access.md R155, R156, R157 (decision D25, log 16). -/
def Obligations.TimerAccessMovesBytes : Prop :=
  (∀ (x : RegIdx) (s : State), ∃ t, exec (.ldVxDt x) s = .next t ∧ t.pc = s.pc + 2 ∧
    (∀ r : RegIdx, t.reg r = if r = x then s.dt else s.reg r) ∧ keepsAllBut [.pc, .regs] s t) ∧
  (∀ (x : RegIdx) (s : State), ∃ t, exec (.ldDtVx x) s = .next t ∧ t.pc = s.pc + 2 ∧ t.dt = s.reg x ∧
    keepsAllBut [.pc, .delay] s t) ∧
  (∀ (x : RegIdx) (s : State), ∃ t, exec (.ldStVx x) s = .next t ∧ t.pc = s.pc + 2 ∧ t.st = s.reg x ∧
    keepsAllBut [.pc, .sound] s t)

/-- 48_unknown.md R160 (decisions D11, D24): report the address and the word, and do nothing. -/
def Obligations.UnknownWordIsReportedAndIgnored : Prop :=
  ∀ (w : Word) (s : State), ∃ t, exec (.unknown w) s = .next t ∧ t.pc = s.pc + 2 ∧
    t.out = s.out ++ [.unknownOpcode s.pc w] ∧ keepsAllBut [.pc, .events] s t

/-- The model's way to place an instruction (log 13): the very next step runs exactly the placed word. -/
def Obligations.PlacedWordRunsNext : Prop :=
  ∀ (s : State) (w : Nat), decodeTableWord 16 w = some (decode (BitVec.ofNat 16 w)) ∧
    step (s.withFetchWord 16 w) = exec (decode (BitVec.ofNat 16 w))
      (takeSlot s.fetchFrame (decode (BitVec.ofNat 16 w)) (s.withFetchWord 16 w))
end

