-- ==== Sys2Proof/Laws/State.lean ====
section
/-! SUPPORT. One lemma per field per update of the state, each true by unfolding, so that no proof unfolds a record
update. -/

namespace Sys2Proof.Machine

/-! ### setReg -/

@[simp] theorem setReg_v (s : State) (x : RegIdx) (b : Byte) : (State.setReg s x b).v = s.v.set x b := rfl
@[simp] theorem setReg_ireg (s : State) (x : RegIdx) (b : Byte) : (State.setReg s x b).ireg = s.ireg := rfl
@[simp] theorem setReg_pc (s : State) (x : RegIdx) (b : Byte) : (State.setReg s x b).pc = s.pc := rfl
@[simp] theorem setReg_sp (s : State) (x : RegIdx) (b : Byte) : (State.setReg s x b).sp = s.sp := rfl
@[simp] theorem setReg_stack (s : State) (x : RegIdx) (b : Byte) : (State.setReg s x b).stack = s.stack := rfl
@[simp] theorem setReg_dt (s : State) (x : RegIdx) (b : Byte) : (State.setReg s x b).dt = s.dt := rfl
@[simp] theorem setReg_st (s : State) (x : RegIdx) (b : Byte) : (State.setReg s x b).st = s.st := rfl
@[simp] theorem setReg_keys (s : State) (x : RegIdx) (b : Byte) : (State.setReg s x b).keys = s.keys := rfl
@[simp] theorem setReg_fb (s : State) (x : RegIdx) (b : Byte) : (State.setReg s x b).fb = s.fb := rfl
@[simp] theorem setReg_mem (s : State) (x : RegIdx) (b : Byte) : (State.setReg s x b).mem = s.mem := rfl
@[simp] theorem setReg_fault (s : State) (x : RegIdx) (b : Byte) : (State.setReg s x b).fault = s.fault := rfl
@[simp] theorem setReg_soundPrev (s : State) (x : RegIdx) (b : Byte) : (State.setReg s x b).soundPrev = s.soundPrev := rfl
@[simp] theorem setReg_frame (s : State) (x : RegIdx) (b : Byte) : (State.setReg s x b).frame = s.frame := rfl
@[simp] theorem setReg_frames (s : State) (x : RegIdx) (b : Byte) : (State.setReg s x b).frames = s.frames := rfl
@[simp] theorem setReg_draws (s : State) (x : RegIdx) (b : Byte) : (State.setReg s x b).draws = s.draws := rfl
@[simp] theorem setReg_rndIn (s : State) (x : RegIdx) (b : Byte) : (State.setReg s x b).rndIn = s.rndIn := rfl
@[simp] theorem setReg_rom (s : State) (x : RegIdx) (b : Byte) : (State.setReg s x b).rom = s.rom := rfl
@[simp] theorem setReg_out (s : State) (x : RegIdx) (b : Byte) : (State.setReg s x b).out = s.out := rfl

/-! ### setFlag -/

@[simp] theorem setFlag_v (s : State) (c : Bool) : (State.setFlag s c).v = s.v.set vf (if c then 1 else 0) := rfl
@[simp] theorem setFlag_ireg (s : State) (c : Bool) : (State.setFlag s c).ireg = s.ireg := rfl
@[simp] theorem setFlag_pc (s : State) (c : Bool) : (State.setFlag s c).pc = s.pc := rfl
@[simp] theorem setFlag_sp (s : State) (c : Bool) : (State.setFlag s c).sp = s.sp := rfl
@[simp] theorem setFlag_stack (s : State) (c : Bool) : (State.setFlag s c).stack = s.stack := rfl
@[simp] theorem setFlag_dt (s : State) (c : Bool) : (State.setFlag s c).dt = s.dt := rfl
@[simp] theorem setFlag_st (s : State) (c : Bool) : (State.setFlag s c).st = s.st := rfl
@[simp] theorem setFlag_keys (s : State) (c : Bool) : (State.setFlag s c).keys = s.keys := rfl
@[simp] theorem setFlag_fb (s : State) (c : Bool) : (State.setFlag s c).fb = s.fb := rfl
@[simp] theorem setFlag_mem (s : State) (c : Bool) : (State.setFlag s c).mem = s.mem := rfl
@[simp] theorem setFlag_fault (s : State) (c : Bool) : (State.setFlag s c).fault = s.fault := rfl
@[simp] theorem setFlag_soundPrev (s : State) (c : Bool) : (State.setFlag s c).soundPrev = s.soundPrev := rfl
@[simp] theorem setFlag_frame (s : State) (c : Bool) : (State.setFlag s c).frame = s.frame := rfl
@[simp] theorem setFlag_frames (s : State) (c : Bool) : (State.setFlag s c).frames = s.frames := rfl
@[simp] theorem setFlag_draws (s : State) (c : Bool) : (State.setFlag s c).draws = s.draws := rfl
@[simp] theorem setFlag_rndIn (s : State) (c : Bool) : (State.setFlag s c).rndIn = s.rndIn := rfl
@[simp] theorem setFlag_rom (s : State) (c : Bool) : (State.setFlag s c).rom = s.rom := rfl
@[simp] theorem setFlag_out (s : State) (c : Bool) : (State.setFlag s c).out = s.out := rfl

/-! ### setI -/

@[simp] theorem setI_v (s : State) (w : Word) : (State.setI s w).v = s.v := rfl
@[simp] theorem setI_ireg (s : State) (w : Word) : (State.setI s w).ireg = w := rfl
@[simp] theorem setI_pc (s : State) (w : Word) : (State.setI s w).pc = s.pc := rfl
@[simp] theorem setI_sp (s : State) (w : Word) : (State.setI s w).sp = s.sp := rfl
@[simp] theorem setI_stack (s : State) (w : Word) : (State.setI s w).stack = s.stack := rfl
@[simp] theorem setI_dt (s : State) (w : Word) : (State.setI s w).dt = s.dt := rfl
@[simp] theorem setI_st (s : State) (w : Word) : (State.setI s w).st = s.st := rfl
@[simp] theorem setI_keys (s : State) (w : Word) : (State.setI s w).keys = s.keys := rfl
@[simp] theorem setI_fb (s : State) (w : Word) : (State.setI s w).fb = s.fb := rfl
@[simp] theorem setI_mem (s : State) (w : Word) : (State.setI s w).mem = s.mem := rfl
@[simp] theorem setI_fault (s : State) (w : Word) : (State.setI s w).fault = s.fault := rfl
@[simp] theorem setI_soundPrev (s : State) (w : Word) : (State.setI s w).soundPrev = s.soundPrev := rfl
@[simp] theorem setI_frame (s : State) (w : Word) : (State.setI s w).frame = s.frame := rfl
@[simp] theorem setI_frames (s : State) (w : Word) : (State.setI s w).frames = s.frames := rfl
@[simp] theorem setI_draws (s : State) (w : Word) : (State.setI s w).draws = s.draws := rfl
@[simp] theorem setI_rndIn (s : State) (w : Word) : (State.setI s w).rndIn = s.rndIn := rfl
@[simp] theorem setI_rom (s : State) (w : Word) : (State.setI s w).rom = s.rom := rfl
@[simp] theorem setI_out (s : State) (w : Word) : (State.setI s w).out = s.out := rfl

/-! ### setDt -/

@[simp] theorem setDt_v (s : State) (b : Byte) : (State.setDt s b).v = s.v := rfl
@[simp] theorem setDt_ireg (s : State) (b : Byte) : (State.setDt s b).ireg = s.ireg := rfl
@[simp] theorem setDt_pc (s : State) (b : Byte) : (State.setDt s b).pc = s.pc := rfl
@[simp] theorem setDt_sp (s : State) (b : Byte) : (State.setDt s b).sp = s.sp := rfl
@[simp] theorem setDt_stack (s : State) (b : Byte) : (State.setDt s b).stack = s.stack := rfl
@[simp] theorem setDt_dt (s : State) (b : Byte) : (State.setDt s b).dt = b := rfl
@[simp] theorem setDt_st (s : State) (b : Byte) : (State.setDt s b).st = s.st := rfl
@[simp] theorem setDt_keys (s : State) (b : Byte) : (State.setDt s b).keys = s.keys := rfl
@[simp] theorem setDt_fb (s : State) (b : Byte) : (State.setDt s b).fb = s.fb := rfl
@[simp] theorem setDt_mem (s : State) (b : Byte) : (State.setDt s b).mem = s.mem := rfl
@[simp] theorem setDt_fault (s : State) (b : Byte) : (State.setDt s b).fault = s.fault := rfl
@[simp] theorem setDt_soundPrev (s : State) (b : Byte) : (State.setDt s b).soundPrev = s.soundPrev := rfl
@[simp] theorem setDt_frame (s : State) (b : Byte) : (State.setDt s b).frame = s.frame := rfl
@[simp] theorem setDt_frames (s : State) (b : Byte) : (State.setDt s b).frames = s.frames := rfl
@[simp] theorem setDt_draws (s : State) (b : Byte) : (State.setDt s b).draws = s.draws := rfl
@[simp] theorem setDt_rndIn (s : State) (b : Byte) : (State.setDt s b).rndIn = s.rndIn := rfl
@[simp] theorem setDt_rom (s : State) (b : Byte) : (State.setDt s b).rom = s.rom := rfl
@[simp] theorem setDt_out (s : State) (b : Byte) : (State.setDt s b).out = s.out := rfl

/-! ### setSt -/

@[simp] theorem setSt_v (s : State) (b : Byte) : (State.setSt s b).v = s.v := rfl
@[simp] theorem setSt_ireg (s : State) (b : Byte) : (State.setSt s b).ireg = s.ireg := rfl
@[simp] theorem setSt_pc (s : State) (b : Byte) : (State.setSt s b).pc = s.pc := rfl
@[simp] theorem setSt_sp (s : State) (b : Byte) : (State.setSt s b).sp = s.sp := rfl
@[simp] theorem setSt_stack (s : State) (b : Byte) : (State.setSt s b).stack = s.stack := rfl
@[simp] theorem setSt_dt (s : State) (b : Byte) : (State.setSt s b).dt = s.dt := rfl
@[simp] theorem setSt_st (s : State) (b : Byte) : (State.setSt s b).st = b := rfl
@[simp] theorem setSt_keys (s : State) (b : Byte) : (State.setSt s b).keys = s.keys := rfl
@[simp] theorem setSt_fb (s : State) (b : Byte) : (State.setSt s b).fb = s.fb := rfl
@[simp] theorem setSt_mem (s : State) (b : Byte) : (State.setSt s b).mem = s.mem := rfl
@[simp] theorem setSt_fault (s : State) (b : Byte) : (State.setSt s b).fault = s.fault := rfl
@[simp] theorem setSt_soundPrev (s : State) (b : Byte) : (State.setSt s b).soundPrev = s.soundPrev := rfl
@[simp] theorem setSt_frame (s : State) (b : Byte) : (State.setSt s b).frame = s.frame := rfl
@[simp] theorem setSt_frames (s : State) (b : Byte) : (State.setSt s b).frames = s.frames := rfl
@[simp] theorem setSt_draws (s : State) (b : Byte) : (State.setSt s b).draws = s.draws := rfl
@[simp] theorem setSt_rndIn (s : State) (b : Byte) : (State.setSt s b).rndIn = s.rndIn := rfl
@[simp] theorem setSt_rom (s : State) (b : Byte) : (State.setSt s b).rom = s.rom := rfl
@[simp] theorem setSt_out (s : State) (b : Byte) : (State.setSt s b).out = s.out := rfl

/-! ### setFb -/

@[simp] theorem setFb_v (s : State) (f : Framebuffer) : (State.setFb s f).v = s.v := rfl
@[simp] theorem setFb_ireg (s : State) (f : Framebuffer) : (State.setFb s f).ireg = s.ireg := rfl
@[simp] theorem setFb_pc (s : State) (f : Framebuffer) : (State.setFb s f).pc = s.pc := rfl
@[simp] theorem setFb_sp (s : State) (f : Framebuffer) : (State.setFb s f).sp = s.sp := rfl
@[simp] theorem setFb_stack (s : State) (f : Framebuffer) : (State.setFb s f).stack = s.stack := rfl
@[simp] theorem setFb_dt (s : State) (f : Framebuffer) : (State.setFb s f).dt = s.dt := rfl
@[simp] theorem setFb_st (s : State) (f : Framebuffer) : (State.setFb s f).st = s.st := rfl
@[simp] theorem setFb_keys (s : State) (f : Framebuffer) : (State.setFb s f).keys = s.keys := rfl
@[simp] theorem setFb_fb (s : State) (f : Framebuffer) : (State.setFb s f).fb = f := rfl
@[simp] theorem setFb_mem (s : State) (f : Framebuffer) : (State.setFb s f).mem = s.mem := rfl
@[simp] theorem setFb_fault (s : State) (f : Framebuffer) : (State.setFb s f).fault = s.fault := rfl
@[simp] theorem setFb_soundPrev (s : State) (f : Framebuffer) : (State.setFb s f).soundPrev = s.soundPrev := rfl
@[simp] theorem setFb_frame (s : State) (f : Framebuffer) : (State.setFb s f).frame = s.frame := rfl
@[simp] theorem setFb_frames (s : State) (f : Framebuffer) : (State.setFb s f).frames = s.frames := rfl
@[simp] theorem setFb_draws (s : State) (f : Framebuffer) : (State.setFb s f).draws = s.draws := rfl
@[simp] theorem setFb_rndIn (s : State) (f : Framebuffer) : (State.setFb s f).rndIn = s.rndIn := rfl
@[simp] theorem setFb_rom (s : State) (f : Framebuffer) : (State.setFb s f).rom = s.rom := rfl
@[simp] theorem setFb_out (s : State) (f : Framebuffer) : (State.setFb s f).out = s.out := rfl

/-! ### setPc -/

@[simp] theorem setPc_v (s : State) (w : Word) : (State.setPc s w).v = s.v := rfl
@[simp] theorem setPc_ireg (s : State) (w : Word) : (State.setPc s w).ireg = s.ireg := rfl
@[simp] theorem setPc_pc (s : State) (w : Word) : (State.setPc s w).pc = w := rfl
@[simp] theorem setPc_sp (s : State) (w : Word) : (State.setPc s w).sp = s.sp := rfl
@[simp] theorem setPc_stack (s : State) (w : Word) : (State.setPc s w).stack = s.stack := rfl
@[simp] theorem setPc_dt (s : State) (w : Word) : (State.setPc s w).dt = s.dt := rfl
@[simp] theorem setPc_st (s : State) (w : Word) : (State.setPc s w).st = s.st := rfl
@[simp] theorem setPc_keys (s : State) (w : Word) : (State.setPc s w).keys = s.keys := rfl
@[simp] theorem setPc_fb (s : State) (w : Word) : (State.setPc s w).fb = s.fb := rfl
@[simp] theorem setPc_mem (s : State) (w : Word) : (State.setPc s w).mem = s.mem := rfl
@[simp] theorem setPc_fault (s : State) (w : Word) : (State.setPc s w).fault = s.fault := rfl
@[simp] theorem setPc_soundPrev (s : State) (w : Word) : (State.setPc s w).soundPrev = s.soundPrev := rfl
@[simp] theorem setPc_frame (s : State) (w : Word) : (State.setPc s w).frame = s.frame := rfl
@[simp] theorem setPc_frames (s : State) (w : Word) : (State.setPc s w).frames = s.frames := rfl
@[simp] theorem setPc_draws (s : State) (w : Word) : (State.setPc s w).draws = s.draws := rfl
@[simp] theorem setPc_rndIn (s : State) (w : Word) : (State.setPc s w).rndIn = s.rndIn := rfl
@[simp] theorem setPc_rom (s : State) (w : Word) : (State.setPc s w).rom = s.rom := rfl
@[simp] theorem setPc_out (s : State) (w : Word) : (State.setPc s w).out = s.out := rfl

/-! ### advance -/

@[simp] theorem advance_v (s : State) : (State.advance s).v = s.v := rfl
@[simp] theorem advance_ireg (s : State) : (State.advance s).ireg = s.ireg := rfl
@[simp] theorem advance_pc (s : State) : (State.advance s).pc = s.pc + 2 := rfl
@[simp] theorem advance_sp (s : State) : (State.advance s).sp = s.sp := rfl
@[simp] theorem advance_stack (s : State) : (State.advance s).stack = s.stack := rfl
@[simp] theorem advance_dt (s : State) : (State.advance s).dt = s.dt := rfl
@[simp] theorem advance_st (s : State) : (State.advance s).st = s.st := rfl
@[simp] theorem advance_keys (s : State) : (State.advance s).keys = s.keys := rfl
@[simp] theorem advance_fb (s : State) : (State.advance s).fb = s.fb := rfl
@[simp] theorem advance_mem (s : State) : (State.advance s).mem = s.mem := rfl
@[simp] theorem advance_fault (s : State) : (State.advance s).fault = s.fault := rfl
@[simp] theorem advance_soundPrev (s : State) : (State.advance s).soundPrev = s.soundPrev := rfl
@[simp] theorem advance_frame (s : State) : (State.advance s).frame = s.frame := rfl
@[simp] theorem advance_frames (s : State) : (State.advance s).frames = s.frames := rfl
@[simp] theorem advance_draws (s : State) : (State.advance s).draws = s.draws := rfl
@[simp] theorem advance_rndIn (s : State) : (State.advance s).rndIn = s.rndIn := rfl
@[simp] theorem advance_rom (s : State) : (State.advance s).rom = s.rom := rfl
@[simp] theorem advance_out (s : State) : (State.advance s).out = s.out := rfl

/-! ### skipIf -/

@[simp] theorem skipIf_v (s : State) (c : Bool) : (State.skipIf s c).v = s.v := rfl
@[simp] theorem skipIf_ireg (s : State) (c : Bool) : (State.skipIf s c).ireg = s.ireg := rfl
@[simp] theorem skipIf_pc (s : State) (c : Bool) : (State.skipIf s c).pc = if c then s.pc + 2 else s.pc := rfl
@[simp] theorem skipIf_sp (s : State) (c : Bool) : (State.skipIf s c).sp = s.sp := rfl
@[simp] theorem skipIf_stack (s : State) (c : Bool) : (State.skipIf s c).stack = s.stack := rfl
@[simp] theorem skipIf_dt (s : State) (c : Bool) : (State.skipIf s c).dt = s.dt := rfl
@[simp] theorem skipIf_st (s : State) (c : Bool) : (State.skipIf s c).st = s.st := rfl
@[simp] theorem skipIf_keys (s : State) (c : Bool) : (State.skipIf s c).keys = s.keys := rfl
@[simp] theorem skipIf_fb (s : State) (c : Bool) : (State.skipIf s c).fb = s.fb := rfl
@[simp] theorem skipIf_mem (s : State) (c : Bool) : (State.skipIf s c).mem = s.mem := rfl
@[simp] theorem skipIf_fault (s : State) (c : Bool) : (State.skipIf s c).fault = s.fault := rfl
@[simp] theorem skipIf_soundPrev (s : State) (c : Bool) : (State.skipIf s c).soundPrev = s.soundPrev := rfl
@[simp] theorem skipIf_frame (s : State) (c : Bool) : (State.skipIf s c).frame = s.frame := rfl
@[simp] theorem skipIf_frames (s : State) (c : Bool) : (State.skipIf s c).frames = s.frames := rfl
@[simp] theorem skipIf_draws (s : State) (c : Bool) : (State.skipIf s c).draws = s.draws := rfl
@[simp] theorem skipIf_rndIn (s : State) (c : Bool) : (State.skipIf s c).rndIn = s.rndIn := rfl
@[simp] theorem skipIf_rom (s : State) (c : Bool) : (State.skipIf s c).rom = s.rom := rfl
@[simp] theorem skipIf_out (s : State) (c : Bool) : (State.skipIf s c).out = s.out := rfl

/-! ### writeByte -/

@[simp] theorem writeByte_v (s : State) (a : Nat) (b : Byte) : (State.writeByte s a b).v = s.v := rfl
@[simp] theorem writeByte_ireg (s : State) (a : Nat) (b : Byte) : (State.writeByte s a b).ireg = s.ireg := rfl
@[simp] theorem writeByte_pc (s : State) (a : Nat) (b : Byte) : (State.writeByte s a b).pc = s.pc := rfl
@[simp] theorem writeByte_sp (s : State) (a : Nat) (b : Byte) : (State.writeByte s a b).sp = s.sp := rfl
@[simp] theorem writeByte_stack (s : State) (a : Nat) (b : Byte) : (State.writeByte s a b).stack = s.stack := rfl
@[simp] theorem writeByte_dt (s : State) (a : Nat) (b : Byte) : (State.writeByte s a b).dt = s.dt := rfl
@[simp] theorem writeByte_st (s : State) (a : Nat) (b : Byte) : (State.writeByte s a b).st = s.st := rfl
@[simp] theorem writeByte_keys (s : State) (a : Nat) (b : Byte) : (State.writeByte s a b).keys = s.keys := rfl
@[simp] theorem writeByte_fb (s : State) (a : Nat) (b : Byte) : (State.writeByte s a b).fb = s.fb := rfl
@[simp] theorem writeByte_mem (s : State) (a : Nat) (b : Byte) : (State.writeByte s a b).mem = s.mem.write a b := rfl
@[simp] theorem writeByte_fault (s : State) (a : Nat) (b : Byte) : (State.writeByte s a b).fault = s.fault := rfl
@[simp] theorem writeByte_soundPrev (s : State) (a : Nat) (b : Byte) : (State.writeByte s a b).soundPrev = s.soundPrev := rfl
@[simp] theorem writeByte_frame (s : State) (a : Nat) (b : Byte) : (State.writeByte s a b).frame = s.frame := rfl
@[simp] theorem writeByte_frames (s : State) (a : Nat) (b : Byte) : (State.writeByte s a b).frames = s.frames := rfl
@[simp] theorem writeByte_draws (s : State) (a : Nat) (b : Byte) : (State.writeByte s a b).draws = s.draws := rfl
@[simp] theorem writeByte_rndIn (s : State) (a : Nat) (b : Byte) : (State.writeByte s a b).rndIn = s.rndIn := rfl
@[simp] theorem writeByte_rom (s : State) (a : Nat) (b : Byte) : (State.writeByte s a b).rom = s.rom := rfl
@[simp] theorem writeByte_out (s : State) (a : Nat) (b : Byte) : (State.writeByte s a b).out = s.out := rfl

/-! ### emit -/

@[simp] theorem emit_v (s : State) (e : Event) : (State.emit s e).v = s.v := rfl
@[simp] theorem emit_ireg (s : State) (e : Event) : (State.emit s e).ireg = s.ireg := rfl
@[simp] theorem emit_pc (s : State) (e : Event) : (State.emit s e).pc = s.pc := rfl
@[simp] theorem emit_sp (s : State) (e : Event) : (State.emit s e).sp = s.sp := rfl
@[simp] theorem emit_stack (s : State) (e : Event) : (State.emit s e).stack = s.stack := rfl
@[simp] theorem emit_dt (s : State) (e : Event) : (State.emit s e).dt = s.dt := rfl
@[simp] theorem emit_st (s : State) (e : Event) : (State.emit s e).st = s.st := rfl
@[simp] theorem emit_keys (s : State) (e : Event) : (State.emit s e).keys = s.keys := rfl
@[simp] theorem emit_fb (s : State) (e : Event) : (State.emit s e).fb = s.fb := rfl
@[simp] theorem emit_mem (s : State) (e : Event) : (State.emit s e).mem = s.mem := rfl
@[simp] theorem emit_fault (s : State) (e : Event) : (State.emit s e).fault = s.fault := rfl
@[simp] theorem emit_soundPrev (s : State) (e : Event) : (State.emit s e).soundPrev = s.soundPrev := rfl
@[simp] theorem emit_frame (s : State) (e : Event) : (State.emit s e).frame = s.frame := rfl
@[simp] theorem emit_frames (s : State) (e : Event) : (State.emit s e).frames = s.frames := rfl
@[simp] theorem emit_draws (s : State) (e : Event) : (State.emit s e).draws = s.draws := rfl
@[simp] theorem emit_rndIn (s : State) (e : Event) : (State.emit s e).rndIn = s.rndIn := rfl
@[simp] theorem emit_rom (s : State) (e : Event) : (State.emit s e).rom = s.rom := rfl
@[simp] theorem emit_out (s : State) (e : Event) : (State.emit s e).out = s.out ++ [e] := rfl

/-! ### consumeDraw -/

@[simp] theorem consumeDraw_v (s : State) : (State.consumeDraw s).v = s.v := rfl
@[simp] theorem consumeDraw_ireg (s : State) : (State.consumeDraw s).ireg = s.ireg := rfl
@[simp] theorem consumeDraw_pc (s : State) : (State.consumeDraw s).pc = s.pc := rfl
@[simp] theorem consumeDraw_sp (s : State) : (State.consumeDraw s).sp = s.sp := rfl
@[simp] theorem consumeDraw_stack (s : State) : (State.consumeDraw s).stack = s.stack := rfl
@[simp] theorem consumeDraw_dt (s : State) : (State.consumeDraw s).dt = s.dt := rfl
@[simp] theorem consumeDraw_st (s : State) : (State.consumeDraw s).st = s.st := rfl
@[simp] theorem consumeDraw_keys (s : State) : (State.consumeDraw s).keys = s.keys := rfl
@[simp] theorem consumeDraw_fb (s : State) : (State.consumeDraw s).fb = s.fb := rfl
@[simp] theorem consumeDraw_mem (s : State) : (State.consumeDraw s).mem = s.mem := rfl
@[simp] theorem consumeDraw_fault (s : State) : (State.consumeDraw s).fault = s.fault := rfl
@[simp] theorem consumeDraw_soundPrev (s : State) : (State.consumeDraw s).soundPrev = s.soundPrev := rfl
@[simp] theorem consumeDraw_frame (s : State) : (State.consumeDraw s).frame = s.frame := rfl
@[simp] theorem consumeDraw_frames (s : State) : (State.consumeDraw s).frames = s.frames := rfl
@[simp] theorem consumeDraw_draws (s : State) : (State.consumeDraw s).draws = s.draws + 1 := rfl
@[simp] theorem consumeDraw_rndIn (s : State) : (State.consumeDraw s).rndIn = s.rndIn.tail := rfl
@[simp] theorem consumeDraw_rom (s : State) : (State.consumeDraw s).rom = s.rom := rfl
@[simp] theorem consumeDraw_out (s : State) : (State.consumeDraw s).out = s.out := rfl

/-! ### takeFault -/

@[simp] theorem takeFault_v (s : State) (c : FaultCause) (i : Instr) : (takeFault c i s).v = s.v := rfl
@[simp] theorem takeFault_ireg (s : State) (c : FaultCause) (i : Instr) : (takeFault c i s).ireg = s.ireg := rfl
@[simp] theorem takeFault_pc (s : State) (c : FaultCause) (i : Instr) : (takeFault c i s).pc = s.pc + 2 := rfl
@[simp] theorem takeFault_sp (s : State) (c : FaultCause) (i : Instr) : (takeFault c i s).sp = s.sp := rfl
@[simp] theorem takeFault_stack (s : State) (c : FaultCause) (i : Instr) : (takeFault c i s).stack = s.stack := rfl
@[simp] theorem takeFault_dt (s : State) (c : FaultCause) (i : Instr) : (takeFault c i s).dt = s.dt := rfl
@[simp] theorem takeFault_st (s : State) (c : FaultCause) (i : Instr) : (takeFault c i s).st = s.st := rfl
@[simp] theorem takeFault_keys (s : State) (c : FaultCause) (i : Instr) : (takeFault c i s).keys = s.keys := rfl
@[simp] theorem takeFault_fb (s : State) (c : FaultCause) (i : Instr) : (takeFault c i s).fb = s.fb := rfl
@[simp] theorem takeFault_mem (s : State) (c : FaultCause) (i : Instr) : (takeFault c i s).mem = s.mem := rfl
@[simp] theorem takeFault_fault (s : State) (c : FaultCause) (i : Instr) : (takeFault c i s).fault = some ⟨c, s.pc, encode i⟩ := rfl
@[simp] theorem takeFault_soundPrev (s : State) (c : FaultCause) (i : Instr) : (takeFault c i s).soundPrev = s.soundPrev := rfl
@[simp] theorem takeFault_frame (s : State) (c : FaultCause) (i : Instr) : (takeFault c i s).frame = s.frame := rfl
@[simp] theorem takeFault_frames (s : State) (c : FaultCause) (i : Instr) : (takeFault c i s).frames = s.frames := rfl
@[simp] theorem takeFault_draws (s : State) (c : FaultCause) (i : Instr) : (takeFault c i s).draws = s.draws := rfl
@[simp] theorem takeFault_rndIn (s : State) (c : FaultCause) (i : Instr) : (takeFault c i s).rndIn = s.rndIn := rfl
@[simp] theorem takeFault_rom (s : State) (c : FaultCause) (i : Instr) : (takeFault c i s).rom = s.rom := rfl
@[simp] theorem takeFault_out (s : State) (c : FaultCause) (i : Instr) : (takeFault c i s).out = s.out := rfl

/-! ### takeSlot -/

@[simp] theorem takeSlot_v (s : State) (f : FrameRun) (i : Instr) : (takeSlot f i s).v = s.v := rfl
@[simp] theorem takeSlot_ireg (s : State) (f : FrameRun) (i : Instr) : (takeSlot f i s).ireg = s.ireg := rfl
@[simp] theorem takeSlot_pc (s : State) (f : FrameRun) (i : Instr) : (takeSlot f i s).pc = s.pc := rfl
@[simp] theorem takeSlot_sp (s : State) (f : FrameRun) (i : Instr) : (takeSlot f i s).sp = s.sp := rfl
@[simp] theorem takeSlot_stack (s : State) (f : FrameRun) (i : Instr) : (takeSlot f i s).stack = s.stack := rfl
@[simp] theorem takeSlot_dt (s : State) (f : FrameRun) (i : Instr) : (takeSlot f i s).dt = s.dt := rfl
@[simp] theorem takeSlot_st (s : State) (f : FrameRun) (i : Instr) : (takeSlot f i s).st = s.st := rfl
@[simp] theorem takeSlot_keys (s : State) (f : FrameRun) (i : Instr) : (takeSlot f i s).keys = s.keys := rfl
@[simp] theorem takeSlot_fb (s : State) (f : FrameRun) (i : Instr) : (takeSlot f i s).fb = s.fb := rfl
@[simp] theorem takeSlot_mem (s : State) (f : FrameRun) (i : Instr) : (takeSlot f i s).mem = s.mem := rfl
@[simp] theorem takeSlot_fault (s : State) (f : FrameRun) (i : Instr) : (takeSlot f i s).fault = s.fault := rfl
@[simp] theorem takeSlot_soundPrev (s : State) (f : FrameRun) (i : Instr) : (takeSlot f i s).soundPrev = s.soundPrev := rfl
@[simp] theorem takeSlot_frame (s : State) (f : FrameRun) (i : Instr) : (takeSlot f i s).frame = some ⟨f.slots - 1, f.tickDue, f.debug⟩ := rfl
@[simp] theorem takeSlot_frames (s : State) (f : FrameRun) (i : Instr) : (takeSlot f i s).frames = s.frames := rfl
@[simp] theorem takeSlot_draws (s : State) (f : FrameRun) (i : Instr) : (takeSlot f i s).draws = s.draws := rfl
@[simp] theorem takeSlot_rndIn (s : State) (f : FrameRun) (i : Instr) : (takeSlot f i s).rndIn = s.rndIn := rfl
@[simp] theorem takeSlot_rom (s : State) (f : FrameRun) (i : Instr) : (takeSlot f i s).rom = s.rom := rfl
@[simp] theorem takeSlot_out (s : State) (f : FrameRun) (i : Instr) : (takeSlot f i s).out = s.out ++ (if f.debug then [.trace (traceRecord i s)] else []) := rfl

/-! ### beginFrame -/

@[simp] theorem beginFrame_v (s : State) (P : Config.Params) (q : FrameRequest) : (beginFrame P q s).v = s.v := rfl
@[simp] theorem beginFrame_ireg (s : State) (P : Config.Params) (q : FrameRequest) : (beginFrame P q s).ireg = s.ireg := rfl
@[simp] theorem beginFrame_pc (s : State) (P : Config.Params) (q : FrameRequest) : (beginFrame P q s).pc = s.pc := rfl
@[simp] theorem beginFrame_sp (s : State) (P : Config.Params) (q : FrameRequest) : (beginFrame P q s).sp = s.sp := rfl
@[simp] theorem beginFrame_stack (s : State) (P : Config.Params) (q : FrameRequest) : (beginFrame P q s).stack = s.stack := rfl
@[simp] theorem beginFrame_dt (s : State) (P : Config.Params) (q : FrameRequest) : (beginFrame P q s).dt = s.dt := rfl
@[simp] theorem beginFrame_st (s : State) (P : Config.Params) (q : FrameRequest) : (beginFrame P q s).st = s.st := rfl
@[simp] theorem beginFrame_keys (s : State) (P : Config.Params) (q : FrameRequest) : (beginFrame P q s).keys = q.keysIn := rfl
@[simp] theorem beginFrame_fb (s : State) (P : Config.Params) (q : FrameRequest) : (beginFrame P q s).fb = s.fb := rfl
@[simp] theorem beginFrame_mem (s : State) (P : Config.Params) (q : FrameRequest) : (beginFrame P q s).mem = s.mem := rfl
@[simp] theorem beginFrame_fault (s : State) (P : Config.Params) (q : FrameRequest) : (beginFrame P q s).fault = s.fault := rfl
@[simp] theorem beginFrame_soundPrev (s : State) (P : Config.Params) (q : FrameRequest) : (beginFrame P q s).soundPrev = s.soundPrev := rfl
@[simp] theorem beginFrame_frame (s : State) (P : Config.Params) (q : FrameRequest) : (beginFrame P q s).frame = some ⟨P.ipf, q.tickDue, q.debug⟩ := rfl
@[simp] theorem beginFrame_frames (s : State) (P : Config.Params) (q : FrameRequest) : (beginFrame P q s).frames = s.frames + 1 := rfl
@[simp] theorem beginFrame_draws (s : State) (P : Config.Params) (q : FrameRequest) : (beginFrame P q s).draws = s.draws := rfl
@[simp] theorem beginFrame_rndIn (s : State) (P : Config.Params) (q : FrameRequest) : (beginFrame P q s).rndIn = q.rnd := rfl
@[simp] theorem beginFrame_rom (s : State) (P : Config.Params) (q : FrameRequest) : (beginFrame P q s).rom = s.rom := rfl
@[simp] theorem beginFrame_out (s : State) (P : Config.Params) (q : FrameRequest) : (beginFrame P q s).out = s.out := rfl

/-! ### timerTick -/

@[simp] theorem timerTick_v (s : State) : (timerTick s).v = s.v := rfl
@[simp] theorem timerTick_ireg (s : State) : (timerTick s).ireg = s.ireg := rfl
@[simp] theorem timerTick_pc (s : State) : (timerTick s).pc = s.pc := rfl
@[simp] theorem timerTick_sp (s : State) : (timerTick s).sp = s.sp := rfl
@[simp] theorem timerTick_stack (s : State) : (timerTick s).stack = s.stack := rfl
@[simp] theorem timerTick_dt (s : State) : (timerTick s).dt = countDown s.dt := rfl
@[simp] theorem timerTick_st (s : State) : (timerTick s).st = countDown s.st := rfl
@[simp] theorem timerTick_keys (s : State) : (timerTick s).keys = s.keys := rfl
@[simp] theorem timerTick_fb (s : State) : (timerTick s).fb = s.fb := rfl
@[simp] theorem timerTick_mem (s : State) : (timerTick s).mem = s.mem := rfl
@[simp] theorem timerTick_fault (s : State) : (timerTick s).fault = s.fault := rfl
@[simp] theorem timerTick_soundPrev (s : State) : (timerTick s).soundPrev = decide (countDown s.st ≠ 0) := rfl
@[simp] theorem timerTick_frame (s : State) : (timerTick s).frame = s.frame := rfl
@[simp] theorem timerTick_frames (s : State) : (timerTick s).frames = s.frames := rfl
@[simp] theorem timerTick_draws (s : State) : (timerTick s).draws = s.draws := rfl
@[simp] theorem timerTick_rndIn (s : State) : (timerTick s).rndIn = s.rndIn := rfl
@[simp] theorem timerTick_rom (s : State) : (timerTick s).rom = s.rom := rfl
@[simp] theorem timerTick_out (s : State) : (timerTick s).out = s.out ++ (if s.st ≠ 0 ∧ s.soundPrev = false then [.soundEdge] else []) := rfl

/-! ### storeBcd -/

@[simp] theorem storeBcd_v (s : State) (x : RegIdx) : (storeBcd x s).v = s.v := rfl
@[simp] theorem storeBcd_ireg (s : State) (x : RegIdx) : (storeBcd x s).ireg = s.ireg := rfl
@[simp] theorem storeBcd_pc (s : State) (x : RegIdx) : (storeBcd x s).pc = s.pc := rfl
@[simp] theorem storeBcd_sp (s : State) (x : RegIdx) : (storeBcd x s).sp = s.sp := rfl
@[simp] theorem storeBcd_stack (s : State) (x : RegIdx) : (storeBcd x s).stack = s.stack := rfl
@[simp] theorem storeBcd_dt (s : State) (x : RegIdx) : (storeBcd x s).dt = s.dt := rfl
@[simp] theorem storeBcd_st (s : State) (x : RegIdx) : (storeBcd x s).st = s.st := rfl
@[simp] theorem storeBcd_keys (s : State) (x : RegIdx) : (storeBcd x s).keys = s.keys := rfl
@[simp] theorem storeBcd_fb (s : State) (x : RegIdx) : (storeBcd x s).fb = s.fb := rfl
@[simp] theorem storeBcd_mem (s : State) (x : RegIdx) : (storeBcd x s).mem = s.mem.writeAll (effAddr s 0) (bcdDigits (s.reg x)) := rfl
@[simp] theorem storeBcd_fault (s : State) (x : RegIdx) : (storeBcd x s).fault = s.fault := rfl
@[simp] theorem storeBcd_soundPrev (s : State) (x : RegIdx) : (storeBcd x s).soundPrev = s.soundPrev := rfl
@[simp] theorem storeBcd_frame (s : State) (x : RegIdx) : (storeBcd x s).frame = s.frame := rfl
@[simp] theorem storeBcd_frames (s : State) (x : RegIdx) : (storeBcd x s).frames = s.frames := rfl
@[simp] theorem storeBcd_draws (s : State) (x : RegIdx) : (storeBcd x s).draws = s.draws := rfl
@[simp] theorem storeBcd_rndIn (s : State) (x : RegIdx) : (storeBcd x s).rndIn = s.rndIn := rfl
@[simp] theorem storeBcd_rom (s : State) (x : RegIdx) : (storeBcd x s).rom = s.rom := rfl
@[simp] theorem storeBcd_out (s : State) (x : RegIdx) : (storeBcd x s).out = s.out := rfl

end Sys2Proof.Machine
end

