-- ==== Sys2Proof/Laws/Memory.lean ====
section
/-! SUPPORT. The laws of main memory: a read after a write, the canonical form, and the byte sequences. -/

namespace Sys2Proof.Machine

/-! ## Reading after writing -/

theorem Memory.listed_unlist_same (m : Memory) (a : Nat) : Memory.listed a (Memory.unlist a m) = none := by
  induction m with
  | nil => rfl
  | cons c m ih =>
    obtain ⟨c, b⟩ := c
    by_cases h : c = a <;> simp [Memory.unlist, Memory.listed, h, ih]

theorem Memory.listed_unlist_other (m : Memory) (a a' : Nat) (h : a' ≠ a) :
    Memory.listed a' (Memory.unlist a m) = Memory.listed a' m := by
  induction m with
  | nil => rfl
  | cons c m ih =>
    obtain ⟨c, b⟩ := c
    by_cases hc : c = a
    · subst hc
      simp [Memory.unlist, Memory.listed, ih, Ne.symm h]
    · simp [Memory.unlist, Memory.listed, hc, ih]

theorem Memory.listed_list_same (m : Memory) (a : Nat) (b : Byte) :
    Memory.listed a (Memory.list a b m) = some b := by
  induction m with
  | nil => simp [Memory.list, Memory.listed]
  | cons c m ih =>
    obtain ⟨c, d⟩ := c
    by_cases h1 : a < c
    · simp [Memory.list, Memory.listed, h1]
    · by_cases h2 : a = c
      · simp [Memory.list, Memory.listed, h2]
      · simp [Memory.list, Memory.listed, h1, h2, Ne.symm h2, ih]

theorem Memory.listed_list_other (m : Memory) (a a' : Nat) (b : Byte) (h : a' ≠ a) :
    Memory.listed a' (Memory.list a b m) = Memory.listed a' m := by
  induction m with
  | nil => simp [Memory.list, Memory.listed, Ne.symm h]
  | cons c m ih =>
    obtain ⟨c, d⟩ := c
    by_cases h1 : a < c
    · simp [Memory.list, Memory.listed, h1, Ne.symm h]
    · by_cases h2 : a = c
      · subst h2
        simp [Memory.list, Memory.listed, Ne.symm h]
      · simp [Memory.list, Memory.listed, h1, h2, ih]

/-- A read after a write to the same address that exists gives the byte written. -/
theorem Memory.read_write_same (m : Memory) (a : Nat) (b : Byte) (h : a < Config.memSize) :
    (m.write a b).read a = b := by
  by_cases hb : b = Memory.unlisted a
  · simp [Memory.write, Memory.read, h, hb, Memory.listed_unlist_same]
  · simp [Memory.write, Memory.read, h, hb, Memory.listed_list_same]

/-- A write leaves every other address alone. -/
theorem Memory.read_write_other (m : Memory) (a a' : Nat) (b : Byte) (h : a' ≠ a) :
    (m.write a b).read a' = m.read a' := by
  by_cases hm : a < Config.memSize
  · by_cases hb : b = Memory.unlisted a
    · simp [Memory.write, Memory.read, hm, hb, Memory.listed_unlist_other _ _ _ h]
    · simp [Memory.write, Memory.read, hm, hb, Memory.listed_list_other _ _ _ _ h]
  · simp [Memory.write, hm]

theorem Memory.read_write (m : Memory) (a a' : Nat) (b : Byte) (h : a < Config.memSize) :
    (m.write a b).read a' = if a' = a then b else m.read a' := by
  by_cases h' : a' = a
  · subst h'
    simp [Memory.read_write_same _ _ _ h]
  · simp [h', Memory.read_write_other _ _ _ _ h']

/-- What a byte sequence leaves: its bytes at its addresses, every other address as before. -/
theorem Memory.read_writeAll (bs : List Byte) : ∀ (m : Memory) (a a' : Nat), a + bs.length ≤ Config.memSize →
    (m.writeAll a bs).read a' = if h : a ≤ a' ∧ a' < a + bs.length then bs[a' - a] else m.read a' := by
  induction bs with
  | nil =>
    intro m a a' _
    simp [Memory.writeAll]
  | cons b bs ih =>
    intro m a a' h
    simp only [List.length_cons] at h
    rw [Memory.writeAll, ih _ _ _ (by omega)]
    by_cases h1 : a + 1 ≤ a' ∧ a' < a + 1 + bs.length
    · have h2 : a ≤ a' ∧ a' < a + (bs.length + 1) := by omega
      have h3 : a' - a = (a' - (a + 1)) + 1 := by omega
      simp [h1, h2, h3]
    · rw [dif_neg h1]
      by_cases h4 : a' = a
      · subst h4
        simp [Memory.read_write_same _ _ _ (show a' < Config.memSize by omega)]
      · have h2 : ¬ (a ≤ a' ∧ a' < a + (bs.length + 1)) := by omega
        simp [h2, Memory.read_write_other _ _ _ _ h4]

/-! ## The canonical form -/

theorem Memory.risesFrom_mono : ∀ (m : Memory) (lo lo' : Nat), lo' ≤ lo → Memory.risesFrom lo m = true →
    Memory.risesFrom lo' m = true
  | [], _, _, _, _ => rfl
  | (c, b) :: m, lo, lo', h, hm => by
    simp only [Memory.risesFrom, Bool.and_eq_true, decide_eq_true_eq] at hm ⊢
    exact ⟨by omega, hm.2⟩

theorem Memory.risesFrom_unlist (a : Nat) : ∀ (m : Memory) (lo : Nat), Memory.risesFrom lo m = true →
    Memory.risesFrom lo (Memory.unlist a m) = true
  | [], _, _ => rfl
  | (c, b) :: m, lo, hm => by
    simp only [Memory.risesFrom, Bool.and_eq_true, decide_eq_true_eq] at hm
    have ih := Memory.risesFrom_unlist a m (c + 1) hm.2
    by_cases h : c = a
    · simpa [Memory.unlist, h] using Memory.risesFrom_mono _ (c + 1) lo (by omega) ih
    · simp [Memory.unlist, h, Memory.risesFrom, hm.1, ih]

theorem Memory.risesFrom_list (a : Nat) (b : Byte) : ∀ (m : Memory) (lo : Nat), lo ≤ a → Memory.risesFrom lo m = true →
    Memory.risesFrom lo (Memory.list a b m) = true
  | [], _, h, _ => by simp [Memory.list, Memory.risesFrom, h]
  | (c, d) :: m, lo, h, hm => by
    simp only [Memory.risesFrom, Bool.and_eq_true, decide_eq_true_eq] at hm
    by_cases h1 : a < c
    · simp only [Memory.list, h1, if_true, Memory.risesFrom, Bool.and_eq_true, decide_eq_true_eq]
      exact ⟨h, by omega, hm.2⟩
    · by_cases h2 : a = c
      · subst h2
        simp only [Memory.list, h1, if_false, if_true, Memory.risesFrom, Bool.and_eq_true, decide_eq_true_eq]
        exact ⟨h, hm.2⟩
      · simp only [Memory.list, h1, h2, if_false, Memory.risesFrom, Bool.and_eq_true, decide_eq_true_eq]
        exact ⟨hm.1, Memory.risesFrom_list a b m (c + 1) (by omega) hm.2⟩

theorem Memory.mem_of_mem_unlist {a : Nat} {c : Host.Cell} : ∀ {m : Memory}, c ∈ Memory.unlist a m → c ∈ m
  | [], h => h
  | (c', b) :: m, h => by
    by_cases hc : c' = a
    · simp only [Memory.unlist, hc, if_true] at h
      exact List.mem_cons_of_mem _ (Memory.mem_of_mem_unlist h)
    · simp only [Memory.unlist, hc, if_false, List.mem_cons] at h
      exact h.elim (fun h => by simp [h]) fun h => List.mem_cons_of_mem _ (Memory.mem_of_mem_unlist h)

theorem Memory.mem_of_mem_list {a : Nat} {b : Byte} {c : Host.Cell} : ∀ {m : Memory}, c ∈ Memory.list a b m →
    c = (a, b) ∨ c ∈ m
  | [], h => by simpa [Memory.list] using h
  | (c', d) :: m, h => by
    by_cases h1 : a < c'
    · simpa [Memory.list, h1] using h
    · by_cases h2 : a = c'
      · subst h2
        simp only [Memory.list, h1, if_false, if_true, List.mem_cons] at h
        exact h.imp_right (List.mem_cons_of_mem _)
      · simp only [Memory.list, h1, h2, if_false, List.mem_cons] at h
        rcases h with h | h
        · exact .inr (by simp [h])
        · exact (Memory.mem_of_mem_list h).imp_right (List.mem_cons_of_mem _)

/-- Every write keeps the canonical form. -/
theorem Memory.wf_write (m : Memory) (a : Nat) (b : Byte) (h : m.wf = true) : (m.write a b).wf = true := by
  simp only [Memory.wf, Bool.and_eq_true, List.all_eq_true, decide_eq_true_eq] at h ⊢
  by_cases ha : a < Config.memSize
  · by_cases hb : b = Memory.unlisted a
    · simp only [Memory.write, ha, hb, if_true]
      exact ⟨Memory.risesFrom_unlist a m 0 h.1, fun c hc => h.2 c (Memory.mem_of_mem_unlist hc)⟩
    · simp only [Memory.write, ha, hb, if_true, if_false]
      refine ⟨Memory.risesFrom_list a b m 0 (Nat.zero_le _) h.1, fun c hc => ?_⟩
      rcases Memory.mem_of_mem_list hc with rfl | hc
      · exact ⟨ha, hb⟩
      · exact h.2 c hc
  · simpa only [Memory.write, ha, if_false] using h

/-- Every byte sequence written keeps the canonical form. -/
theorem Memory.wf_writeAll (bs : List Byte) : ∀ (m : Memory) (a : Nat), m.wf = true → (m.writeAll a bs).wf = true := by
  induction bs with
  | nil => exact fun _ _ h => h
  | cons b bs ih => exact fun m a h => ih _ _ (Memory.wf_write m a b h)

/-- Writes leave every address below them alone; so a store from 0x050 up keeps the font. -/
theorem Memory.read_writeAll_below (bs : List Byte) (m : Memory) (a a' : Nat) (h : a' < a) :
    (m.writeAll a bs).read a' = m.read a' := by
  induction bs generalizing m a with
  | nil => rfl
  | cons b bs ih => exact (ih _ _ (by omega)).trans (Memory.read_write_other _ _ _ _ (by omega))

/-! ## Memory as reset leaves it -/

theorem Memory.listed_ofBytes_below : ∀ (bs : List Byte) (a a' : Nat), a' < a →
    Memory.listed a' (Memory.ofBytes a bs) = none
  | [], _, _, _ => rfl
  | b :: bs, a, a', h => by
    have ih := Memory.listed_ofBytes_below bs (a + 1) a' (by omega)
    by_cases hb : b = 0
    · simp only [Memory.ofBytes, hb, if_true, ih]
    · simp only [Memory.ofBytes, hb, if_false, Memory.listed, show a ≠ a' by omega, ih]

/-- A memory made of bytes reads as them, and as 0 elsewhere. -/
theorem Memory.read_ofBytes : ∀ (bs : List Byte) (a a' : Nat),
    (Memory.ofBytes a bs).read a' = if a ≤ a' then bs.getD (a' - a) 0 else 0
  | [], a, a' => by simp [Memory.ofBytes, Memory.read, Memory.listed, Memory.unlisted]
  | b :: bs, a, a' => by
    by_cases h : a' < a
    · rw [if_neg (by omega), Memory.read, Memory.listed_ofBytes_below _ _ _ h]; rfl
    · rw [if_pos (by omega)]
      by_cases h' : a' = a
      · subst h'
        have below := Memory.listed_ofBytes_below bs (a' + 1) a' (by omega)
        by_cases hb : b = 0
        · simp [Memory.read, Memory.ofBytes, hb, below, Memory.unlisted]
        · rw [Memory.ofBytes, if_neg hb, Nat.sub_self]; simp [Memory.read, Memory.listed]
      · have ih := Memory.read_ofBytes bs (a + 1) a'
        rw [if_pos (by omega)] at ih
        obtain ⟨k, hk⟩ : ∃ k, a' - a = k + 1 := ⟨a' - a - 1, by omega⟩
        rw [show a' - (a + 1) = k by omega] at ih
        rw [hk, List.getD_cons_succ, ← ih]
        by_cases hb : b = 0
        · simp only [Memory.ofBytes, hb, if_true]
        · simp only [Memory.ofBytes, hb, if_false, Memory.read, Memory.listed, show a ≠ a' by omega]

theorem Memory.risesFrom_ofBytes : ∀ (bs : List Byte) (a : Nat), Memory.risesFrom a (Memory.ofBytes a bs) = true
  | [], _ => rfl
  | b :: bs, a => by
    have ih := Memory.risesFrom_ofBytes bs (a + 1)
    by_cases hb : b = 0
    · simpa only [Memory.ofBytes, hb, if_true] using Memory.risesFrom_mono _ (a + 1) a (by omega) ih
    · rw [Memory.ofBytes, if_neg hb]; simp [Memory.risesFrom, ih]

theorem Memory.mem_ofBytes {c : Host.Cell} : ∀ {bs : List Byte} {a : Nat}, c ∈ Memory.ofBytes a bs →
    c.1 < a + bs.length ∧ c.2 ≠ 0
  | [], _, h => nomatch h
  | b :: bs, a, h => by
    simp only [Memory.ofBytes] at h
    split at h
    · have := Memory.mem_ofBytes h
      exact ⟨by simp only [List.length_cons]; omega, this.2⟩
    · rename_i hb
      rcases List.mem_cons.1 h with rfl | h
      · exact ⟨by simp, hb⟩
      · have := Memory.mem_ofBytes h
        exact ⟨by simp only [List.length_cons]; omega, this.2⟩

/-- A memory made of bytes that all fit is canonical. -/
theorem Memory.wf_ofBytes (bs : List Byte) (a : Nat) (h : a + bs.length ≤ Config.memSize) :
    (Memory.ofBytes a bs).wf = true := by
  simp only [Memory.wf, Bool.and_eq_true, List.all_eq_true, decide_eq_true_eq]
  exact ⟨Memory.risesFrom_mono _ a 0 (Nat.zero_le _) (Memory.risesFrom_ofBytes bs a),
    fun c hc => ⟨lt_of_lt_of_le (Memory.mem_ofBytes hc).1 h, (Memory.mem_ofBytes hc).2⟩⟩

/-- What memory reads as right after reset, for every `FONT` (10_state.md R33, R34). -/
theorem readByte_resetWith (P : Config.Params) (a : Nat) :
    (State.resetWith P).readByte a = if h : a < 80 then P.font[a] else 0 := by
  refine (Memory.read_ofBytes _ 0 a).trans ?_
  rw [if_pos (Nat.zero_le a), Nat.sub_zero]
  by_cases h : a < 80
  · rw [dif_pos h, List.getD_eq_getElem _ _ (by simpa using h)]; simp
  · rw [dif_neg h, List.getD_eq_default _ _ (by simpa using h)]

end Sys2Proof.Machine
end

