-- ==== Sys2Proof/Laws/Registers.lean ====
section
/-! SUPPORT. The laws of registers and of the block transfers: reading a register after a write, and everything the
register-range loops of 44_memory_bcd.md R134 to R136 can do. -/

namespace Sys2Proof.Machine

/-- Reading a register after a write. -/
@[simp] theorem reg_setReg (s : State) (x y : RegIdx) (b : Byte) :
    (s.setReg x b).reg y = if y = x then b else s.reg y := by
  simp only [State.reg, State.setReg, Fin.getElem_fin, Vector.getElem_set]
  by_cases h : y = x
  · subst h; simp
  · have : x.val ≠ y.val := fun e => h (Fin.ext e.symm)
    simp [h, this]

@[simp] theorem reg_setFlag (s : State) (y : RegIdx) (c : Bool) :
    (s.setFlag c).reg y = if y = vf then (if c then 1 else 0) else s.reg y := by
  rw [State.setFlag, reg_setReg]

/-- A register read depends on the register file alone. -/
theorem reg_congr {s t : State} (h : s.v = t.v) (y : RegIdx) : s.reg y = t.reg y := by
  rw [State.reg, State.reg, h]

@[simp] theorem reg_advance (s : State) (y : RegIdx) : s.advance.reg y = s.reg y := rfl
@[simp] theorem reg_setPc (s : State) (w : Word) (y : RegIdx) : (s.setPc w).reg y = s.reg y := rfl
@[simp] theorem reg_setFb (s : State) (f : Framebuffer) (y : RegIdx) : (s.setFb f).reg y = s.reg y := rfl
@[simp] theorem reg_writeByte (s : State) (a : Nat) (b : Byte) (y : RegIdx) : (s.writeByte a b).reg y = s.reg y := rfl
@[simp] theorem reg_consumeDraw (s : State) (y : RegIdx) : s.consumeDraw.reg y = s.reg y := rfl
@[simp] theorem reg_setI (s : State) (w : Word) (y : RegIdx) : (s.setI w).reg y = s.reg y := rfl
@[simp] theorem reg_takeFault (c : FaultCause) (i : Instr) (s : State) (y : RegIdx) :
    (takeFault c i s).reg y = s.reg y := rfl

@[simp] theorem readByte_setReg (s : State) (x : RegIdx) (b : Byte) (a : Nat) :
    (s.setReg x b).readByte a = s.readByte a := rfl
@[simp] theorem readByte_setFlag (s : State) (c : Bool) (a : Nat) : (s.setFlag c).readByte a = s.readByte a := rfl
@[simp] theorem readByte_advance (s : State) (a : Nat) : s.advance.readByte a = s.readByte a := rfl

@[simp] theorem effAddr_setReg (s : State) (x : RegIdx) (b : Byte) (k : Nat) : effAddr (s.setReg x b) k = effAddr s k := rfl
@[simp] theorem effAddr_setFlag (s : State) (c : Bool) (k : Nat) : effAddr (s.setFlag c) k = effAddr s k := rfl
@[simp] theorem effAddr_advance (s : State) (k : Nat) : effAddr s.advance k = effAddr s k := rfl
@[simp] theorem effAddr_writeByte (s : State) (a : Nat) (b : Byte) (k : Nat) : effAddr (s.writeByte a b) k = effAddr s k := rfl

/-- `V0 .. Vx` are the registers up to `x`. -/
theorem mem_regsUpTo : ∀ x i : RegIdx, i ∈ regsUpTo x ↔ i ≤ x := by decide

/-- No register stands twice in `V0 .. Vx`. -/
theorem nodup_regsUpTo : ∀ x : RegIdx, (regsUpTo x).Nodup := by decide

/-! ## Loading a range (R136) -/

theorem reg_loadLoop (s : State) (y : RegIdx) : ∀ (xs : List RegIdx) (t : State),
    (xs.foldl (fun t i => t.setReg i (s.readByte (effAddr s i.val))) t).reg y
      = if y ∈ xs then s.readByte (effAddr s y.val) else t.reg y := by
  intro xs
  induction xs with
  | nil => simp
  | cons x xs ih =>
    intro t
    rw [List.foldl_cons, ih, reg_setReg]
    by_cases h : y ∈ xs
    · simp [h]
    · by_cases h' : y = x
      · subst h'; simp [h]
      · simp [h, h']

/-- `LD Vx, [I]` loads `V[i]` from `I + i` for each `i <= x`. -/
theorem reg_loadRegs (x y : RegIdx) (s : State) :
    (loadRegs x s).reg y = if y ≤ x then s.readByte (effAddr s y.val) else s.reg y := by
  rw [loadRegs, reg_loadLoop]
  simp only [mem_regsUpTo]

/-- The load changes the register file alone. -/
theorem loadRegs_eq (x : RegIdx) (s : State) : loadRegs x s = { s with v := (loadRegs x s).v } := by
  suffices h : ∀ (xs : List RegIdx) (f : RegIdx → Byte) (t : State),
      xs.foldl (fun t i => t.setReg i (f i)) t = { t with v := (xs.foldl (fun t i => t.setReg i (f i)) t).v } from
    h _ (fun i => s.readByte (effAddr s i.val)) s
  intro xs f
  induction xs with
  | nil => intro t; rfl
  | cons x xs ih => intro t; exact (ih (t.setReg x (f x))).trans rfl

/-! ## Storing a range (R135) -/

theorem readByte_storeLoop (s : State) (base a : Nat) : ∀ (xs : List RegIdx) (t : State),
    (∀ i ∈ xs, base + i.val < Config.memSize) →
    (xs.foldl (fun t i => t.writeByte (base + i.val) (s.reg i)) t).readByte a
      = match xs.find? (fun i => decide (base + i.val = a)) with
        | some i => s.reg i
        | none => t.readByte a := by
  intro xs
  induction xs with
  | nil => intro t _; rfl
  | cons x xs ih =>
    intro t h
    rw [List.foldl_cons, ih _ fun i hi => h i (List.mem_cons_of_mem _ hi)]
    by_cases hx : base + x.val = a
    · rw [List.find?_cons_of_pos (by simpa using hx)]
      cases hf : xs.find? (fun i => decide (base + i.val = a)) with
      | some i =>
        have hi := List.find?_some hf
        simp only [decide_eq_true_eq] at hi
        have : i = x := Fin.ext (by omega)
        simp [this]
      | none =>
        subst hx
        exact Memory.read_write_same _ _ _ (h x (List.mem_cons_self ..))
    · rw [List.find?_cons_of_neg (by simpa using hx)]
      cases hf : xs.find? (fun i => decide (base + i.val = a)) with
      | some i => rfl
      | none => exact Memory.read_write_other _ _ _ _ (Ne.symm hx)

/-- `LD [I], Vx` stores `V[i]` at `I + i` for each `i <= x`; every other address reads as before. -/
theorem readByte_storeRegs (x : RegIdx) (s : State) (a : Nat) (h : effAddr s x.val < Config.memSize) :
    (storeRegs x s).readByte a
      = if effAddr s 0 ≤ a ∧ a ≤ effAddr s x.val then s.reg (Fin.ofNat 16 (a - effAddr s 0))
        else s.readByte a := by
  have key := readByte_storeLoop s s.ireg.toNat a (regsUpTo x) s (by
    intro i hi
    rw [mem_regsUpTo] at hi
    have : i.val ≤ x.val := hi
    simp only [effAddr] at h
    omega)
  have e : ∀ k, effAddr s k = s.ireg.toNat + k := fun _ => rfl
  refine Eq.trans key ?_
  cases hf : (regsUpTo x).find? (fun i => decide (s.ireg.toNat + i.val = a)) with
  | some i =>
    have hi := List.find?_some hf
    have hm := List.mem_of_find?_eq_some hf
    rw [mem_regsUpTo] at hm
    have hm : i.val ≤ x.val := hm
    simp only [decide_eq_true_eq] at hi
    have hc : effAddr s 0 ≤ a ∧ a ≤ effAddr s x.val := by rw [e, e]; omega
    have he : Fin.ofNat 16 (a - effAddr s 0) = i := Fin.ext (by
      have := i.isLt
      simp only [Fin.val_ofNat, e]
      omega)
    rw [if_pos hc, he]
  | none =>
    have hc : ¬ (effAddr s 0 ≤ a ∧ a ≤ effAddr s x.val) := by
      intro hc
      rw [e, e] at hc
      rw [List.find?_eq_none] at hf
      have := hf ⟨a - s.ireg.toNat, by omega⟩ ((mem_regsUpTo x _).2 (by show a - _ ≤ x.val; omega))
      simp only [decide_eq_true_eq] at this
      omega
    rw [if_neg hc]

/-- The store changes memory alone. -/
theorem storeRegs_eq (x : RegIdx) (s : State) : storeRegs x s = { s with mem := (storeRegs x s).mem } := by
  suffices h : ∀ (xs : List RegIdx) (f : RegIdx → Nat) (g : RegIdx → Byte) (t : State),
      xs.foldl (fun t i => t.writeByte (f i) (g i)) t
        = { t with mem := (xs.foldl (fun t i => t.writeByte (f i) (g i)) t).mem } from
    h _ (fun i => effAddr s i.val) s.reg s
  intro xs f g
  induction xs with
  | nil => intro t; rfl
  | cons x xs ih => intro t; exact (ih (t.writeByte (f x) (g x))).trans rfl

/-- `LD B, Vx` stores the digits at `I`, `I + 1`, `I + 2`; every other address reads as before (R134). -/
theorem readByte_storeBcd (x : RegIdx) (s : State) (a : Nat) (h : s.ireg.toNat + 2 ≤ 0xFFF) :
    (storeBcd x s).readByte a
      = if a = s.ireg.toNat then BitVec.ofNat 8 ((s.reg x).toNat / 100)
        else if a = s.ireg.toNat + 1 then BitVec.ofNat 8 ((s.reg x).toNat / 10 % 10)
        else if a = s.ireg.toNat + 2 then BitVec.ofNat 8 ((s.reg x).toNat % 10)
        else s.readByte a := by
  have r : ∀ (m : Memory) (b : Byte) (k : Nat), k ≤ 2 →
      (m.write (s.ireg.toNat + k) b).read a = if a = s.ireg.toNat + k then b else m.read a := fun m b k hk =>
    Memory.read_write _ _ _ _ (by simp only [Config.memSize]; omega)
  refine ((r _ _ 2 (le_refl 2)).trans (congrArg _ ((r _ _ 1 (by omega)).trans (congrArg _ (r _ _ 0 (by omega)))))).trans ?_
  simp only [Nat.add_zero]
  split_ifs <;> first | rfl | omega

/-- The store keeps the canonical form of memory. -/
theorem storeRegs_wf (x : RegIdx) (s : State) (h : s.mem.wf = true) : (storeRegs x s).mem.wf = true := by
  suffices g : ∀ (xs : List RegIdx) (t : State), t.mem.wf = true →
      (xs.foldl (fun t i => t.writeByte (effAddr s i.val) (s.reg i)) t).mem.wf = true from g _ s h
  intro xs
  induction xs with
  | nil => exact fun t h => h
  | cons x xs ih => exact fun t h => ih _ (Memory.wf_write _ _ _ h)

/-! ## The checks (20_memory.md R57, R58) -/

theorem checkRead_eq_none {hi : Nat} : checkRead hi = none ↔ hi ≤ 0xFFF := by
  by_cases h : hi > 0xFFF
  · simp [checkRead, h]
  · simp only [checkRead, h, if_false, true_iff]; omega

theorem checkWrite_eq_none {lo hi : Nat} : checkWrite lo hi = none ↔ hi ≤ 0xFFF ∧ Config.fontSize ≤ lo := by
  by_cases h : hi > 0xFFF
  · simp only [checkWrite, h, if_true, reduceCtorEq, false_iff]; omega
  · by_cases h' : lo < Config.fontSize
    · simp only [checkWrite, h, h', if_true, if_false, reduceCtorEq, false_iff]; omega
    · simp only [checkWrite, h, h', if_false, true_iff]; omega

/-! ## Call stack (R24, R25) -/

/-- All a push can do. -/
theorem push_eq (s : State) (w : Word) :
    (∃ h : s.sp.val < 16, s.push w = some { s with stack := s.stack.set s.sp.val w, sp := ⟨s.sp.val + 1, by omega⟩ }) ∨
    (s.sp = 16 ∧ s.push w = none) := by
  by_cases h : s.sp.val < 16
  · exact .inl ⟨h, by simp [State.push, h]⟩
  · exact .inr ⟨Fin.ext (by have := s.sp.isLt; show s.sp.val = 16; omega), by simp [State.push, h]⟩

/-- All a pop can do. -/
theorem pop_eq (s : State) :
    (∃ h : 0 < s.sp.val, s.pop = some (s.stack[s.sp.val - 1], { s with sp := ⟨s.sp.val - 1, by omega⟩ })) ∨
    (s.sp = 0 ∧ s.pop = none) := by
  by_cases h : 0 < s.sp.val
  · exact .inl ⟨h, by simp [State.pop, h]⟩
  · exact .inr ⟨Fin.ext (by show s.sp.val = 0; omega), by simp [State.pop, h]⟩

/-! ## Keys (R28, R152) -/

/-- The lowest held key is held, and no lower key is. -/
theorem lowestKey_eq_some {s : State} {k : KeyIdx} (h : s.lowestKey = some k) :
    s.keyHeld k = true ∧ ∀ j : KeyIdx, j < k → s.keyHeld j = false := by
  refine ⟨List.find?_some h, fun j hj => ?_⟩
  have h2 : ∀ k j : KeyIdx, j < k → ∀ as bs, allIdx = as ++ k :: bs → j ∈ as := by
    intro k j hj as bs e
    have hall : ∀ j : KeyIdx, j ∈ allIdx := by decide
    have hm := hall j
    rw [e, List.mem_append, List.mem_cons] at hm
    rcases hm with hm | rfl | hm
    · exact hm
    · exact absurd hj (lt_irrefl _)
    · have hs : allIdx.Pairwise (· < ·) := by decide
      rw [e, List.pairwise_append, List.pairwise_cons] at hs
      exact absurd (hs.2.1.1 j hm) (lt_asymm hj)
  obtain ⟨_, as, bs, e, hn⟩ := List.find?_eq_some_iff_append.1 h
  simpa using hn j (h2 k j hj as bs e)

/-- There is no lowest held key exactly when none is held. -/
theorem lowestKey_eq_none {s : State} : s.lowestKey = none ↔ s.keys = 0 := by
  have hm : ∀ k : KeyIdx, k ∈ allIdx := by decide
  rw [State.lowestKey, List.find?_eq_none]
  constructor
  · intro h
    ext i hi
    simpa [State.keyHeld, BitVec.getLsbD_eq_getElem hi] using h ⟨i, hi⟩ (hm _)
  · intro h k _
    simp [State.keyHeld, h]

end Sys2Proof.Machine
end

