-- ==== Sys2Proof/Laws/Display.lean ====
section
/-! SUPPORT. The laws of the framebuffer (45_display.md R140, R142): a pixel after a flip, no two pixels of a sprite on the
same framebuffer pixel, and everything the drawing loop can do. -/

namespace Sys2Proof.Machine

/-- A pixel after a flip: the flipped one is inverted, every other is as before. -/
theorem Framebuffer.pixel_flip (f : Framebuffer) (px qx : Fin 64) (py qy : Fin 32) :
    (f.flip px py).pixel qx qy = (f.pixel qx qy ^^ decide ((qx, qy) = (px, py))) := by
  simp only [Framebuffer.flip, Framebuffer.pixel, Fin.getElem_fin, Vector.getElem_set, Prod.mk.injEq]
  by_cases hy : py.val = qy.val
  · have hy' : qy = py := Fin.ext hy.symm
    subst hy'
    by_cases hx : qx = px
    · subst hx
      simp
    · have : ¬ qx.val = px.val := fun e => hx (Fin.ext e)
      simp [hx, this]
  · have hy' : qy ≠ py := fun e => hy (by rw [e])
    simp [hy, hy']

/-- Every pixel of a clear framebuffer is 0 (R141). -/
theorem Framebuffer.pixel_clear (px : Fin 64) (py : Fin 32) : Framebuffer.clear.pixel px py = false := by
  simp [Framebuffer.clear, Framebuffer.pixel]

/-- Two framebuffers with the same pixels are the same. -/
theorem Framebuffer.ext_pixel {f g : Framebuffer} (h : ∀ px py, f.pixel px py = g.pixel px py) : f = g := by
  refine Vector.ext fun i hi => BitVec.eq_of_getLsbD_eq fun j hj => ?_
  exact h ⟨j, hj⟩ ⟨i, hi⟩

/-- The drawing loop over pixels that are all different: each of them is inverted, and a lit one among them is a
collision. -/
theorem plot_fold (ps : List (Fin 64 × Fin 32)) (hps : ps.Nodup) : ∀ c : Canvas,
    (∀ qx qy, (ps.foldl plot c).fb.pixel qx qy = (c.fb.pixel qx qy ^^ decide ((qx, qy) ∈ ps))) ∧
    ((ps.foldl plot c).hit = true ↔ c.hit = true ∨ ∃ p ∈ ps, c.fb.pixel p.1 p.2 = true) := by
  induction ps with
  | nil => intro c; simp
  | cons p ps ih =>
    intro c
    rw [List.nodup_cons] at hps
    obtain ⟨h1, h2⟩ := ih hps.2 (plot c p)
    refine ⟨fun qx qy => ?_, ?_⟩
    · rw [List.foldl_cons, h1, plot, Framebuffer.pixel_flip]
      by_cases hq : (qx, qy) = p
      · subst hq
        simp [hps.1]
      · simp [hq]
    · rw [List.foldl_cons, h2]
      simp only [plot, Bool.or_eq_true, List.mem_cons, exists_eq_or_imp, or_assoc]
      refine or_congr_right (or_congr_right (exists_congr fun q => and_congr_right fun hq => ?_))
      have : ¬ ((q.1, q.2) = (p.1, p.2)) := fun e => hps.1 (by
        have : q = p := e
        exact this ▸ hq)
      rw [Framebuffer.pixel_flip]
      simp [this]

/-- The pixels of a sprite, one by one. -/
theorem mem_spriteCells {s : State} {ox oy n : Nat} {p : Fin 64 × Fin 32} :
    p ∈ spriteCells s ox oy n ↔ ∃ r < n, ∃ c < 8, spriteBit (spriteRow s r) c = true ∧ torus ox oy c r = p := by
  simp only [spriteCells, List.mem_flatMap, List.mem_range, List.mem_map, List.mem_filter]
  exact exists_congr fun r => and_congr_right fun _ => exists_congr fun c => by tauto

/-- A sprite of at most 32 rows is smaller than the torus, so no two of its pixels land on the same one (R142). -/
theorem nodup_spriteCells (s : State) (ox oy n : Nat) (hn : n ≤ 32) : (spriteCells s ox oy n).Nodup := by
  have inj : ∀ c c' r r', c < 8 → c' < 8 → r < n → r' < n → torus ox oy c r = torus ox oy c' r' → c = c' ∧ r = r' := by
    intro c c' r r' hc hc' hr hr' h
    simp only [torus, Prod.mk.injEq, Fin.mk.injEq] at h
    omega
  rw [spriteCells, List.nodup_flatMap]
  refine ⟨fun r hr => ?_, ?_⟩
  · rw [List.mem_range] at hr
    refine List.Nodup.map_on ?_ (List.nodup_range.filter _)
    intro c hc c' hc' h
    simp only [List.mem_filter, List.mem_range] at hc hc'
    exact (inj c c' r r hc.1 hc'.1 hr hr h).1
  · refine List.nodup_range.imp_of_mem ?_
    intro r r' hr hr' hne p hp hp'
    simp only [List.mem_map, List.mem_filter, List.mem_range] at hp hp' hr hr'
    obtain ⟨c, hc, rfl⟩ := hp
    obtain ⟨c', hc', h⟩ := hp'
    exact hne (inj c' c r' r hc'.1 hc.1 hr' hr h).2.symm

end Sys2Proof.Machine
end

