-- ==== Sys2Proof/Laws/Encoding.lean ====
section
/-! SUPPORT. The laws of words and fields (30_encoding.md R71, R72): every field of an assembled word is the field it was
assembled from, and every word is assembled from its fields. -/

namespace Sys2Proof

section
variable (op x y n : Nibble) (kk : Byte) (nnn : Addr)

theorem toNat_wordXK : (wordXK op x kk).toNat = op.toNat * 4096 + x.toNat * 256 + kk.toNat := by
  have := op.isLt; have := x.isLt; have := kk.isLt
  rw [wordXK, BitVec.toNat_append, BitVec.toNat_append, ← Nat.shiftLeft_add_eq_or_of_lt (by omega),
    ← Nat.shiftLeft_add_eq_or_of_lt (by omega), Nat.shiftLeft_eq, Nat.shiftLeft_eq]
  omega

theorem toNat_wordXYN :
    (wordXYN op x y n).toNat = op.toNat * 4096 + x.toNat * 256 + y.toNat * 16 + n.toNat := by
  have := op.isLt; have := x.isLt; have := y.isLt; have := n.isLt
  rw [wordXYN, BitVec.toNat_append, BitVec.toNat_append, BitVec.toNat_append, ← Nat.shiftLeft_add_eq_or_of_lt (by omega),
    ← Nat.shiftLeft_add_eq_or_of_lt (by omega), ← Nat.shiftLeft_add_eq_or_of_lt (by omega), Nat.shiftLeft_eq,
    Nat.shiftLeft_eq, Nat.shiftLeft_eq]
  omega

theorem toNat_wordA : (wordA op nnn).toNat = op.toNat * 4096 + nnn.toNat := by
  have := op.isLt; have := nnn.isLt
  rw [wordA, BitVec.toNat_append, ← Nat.shiftLeft_add_eq_or_of_lt (by omega), Nat.shiftLeft_eq]

/-! ## Fields as numbers -/

theorem toNat_opField (w : Word) : (opField w).toNat = w.toNat / 4096 := by
  have := w.isLt
  simp only [opField, BitVec.extractLsb'_toNat, Nat.shiftRight_eq_div_pow]
  omega

theorem toNat_xNibble (w : Word) : (xNibble w).toNat = w.toNat / 256 % 16 := by
  simp only [xNibble, BitVec.extractLsb'_toNat, Nat.shiftRight_eq_div_pow]

theorem toNat_yNibble (w : Word) : (yNibble w).toNat = w.toNat / 16 % 16 := by
  simp only [yNibble, BitVec.extractLsb'_toNat, Nat.shiftRight_eq_div_pow]

theorem toNat_nField (w : Word) : (nField w).toNat = w.toNat % 16 := by
  simp [nField, BitVec.extractLsb'_toNat]

theorem toNat_kkField (w : Word) : (kkField w).toNat = w.toNat % 256 := by
  simp [kkField, BitVec.extractLsb'_toNat]

theorem toNat_nnnField (w : Word) : (nnnField w).toNat = w.toNat % 4096 := by
  simp only [nnnField, BitVec.extractLsb'_toNat, Nat.shiftRight_eq_div_pow]
  omega

/-! ## Fields of assembled words -/

@[simp] theorem opField_wordXK : opField (wordXK op x kk) = op := by
  have := op.isLt; have := x.isLt; have := kk.isLt
  apply BitVec.eq_of_toNat_eq; rw [toNat_opField, toNat_wordXK]; omega

@[simp] theorem xNibble_wordXK : xNibble (wordXK op x kk) = x := by
  have := op.isLt; have := x.isLt; have := kk.isLt
  apply BitVec.eq_of_toNat_eq; rw [toNat_xNibble, toNat_wordXK]; omega

@[simp] theorem kkField_wordXK : kkField (wordXK op x kk) = kk := by
  have := op.isLt; have := x.isLt; have := kk.isLt
  apply BitVec.eq_of_toNat_eq; rw [toNat_kkField, toNat_wordXK]; omega

@[simp] theorem opField_wordXYN : opField (wordXYN op x y n) = op := by
  have := op.isLt; have := x.isLt; have := y.isLt; have := n.isLt
  apply BitVec.eq_of_toNat_eq; rw [toNat_opField, toNat_wordXYN]; omega

@[simp] theorem xNibble_wordXYN : xNibble (wordXYN op x y n) = x := by
  have := op.isLt; have := x.isLt; have := y.isLt; have := n.isLt
  apply BitVec.eq_of_toNat_eq; rw [toNat_xNibble, toNat_wordXYN]; omega

@[simp] theorem yNibble_wordXYN : yNibble (wordXYN op x y n) = y := by
  have := op.isLt; have := x.isLt; have := y.isLt; have := n.isLt
  apply BitVec.eq_of_toNat_eq; rw [toNat_yNibble, toNat_wordXYN]; omega

@[simp] theorem nField_wordXYN : nField (wordXYN op x y n) = n := by
  have := op.isLt; have := x.isLt; have := y.isLt; have := n.isLt
  apply BitVec.eq_of_toNat_eq; rw [toNat_nField, toNat_wordXYN]; omega

@[simp] theorem opField_wordA : opField (wordA op nnn) = op := by
  have := op.isLt; have := nnn.isLt
  apply BitVec.eq_of_toNat_eq; rw [toNat_opField, toNat_wordA]; omega

@[simp] theorem nnnField_wordA : nnnField (wordA op nnn) = nnn := by
  have := op.isLt; have := nnn.isLt
  apply BitVec.eq_of_toNat_eq; rw [toNat_nnnField, toNat_wordA]; omega

end

@[simp] theorem toFin_nib (x : RegIdx) : (nib x).toFin = x := rfl

@[simp] theorem nib_toFin (u : Nibble) : nib u.toFin = u := rfl

/-! ## Every word is assembled from its fields -/

theorem wordXK_fields (w : Word) : wordXK (opField w) (xNibble w) (kkField w) = w := by
  have := w.isLt
  apply BitVec.eq_of_toNat_eq; rw [toNat_wordXK, toNat_opField, toNat_xNibble, toNat_kkField]; omega

theorem wordXYN_fields (w : Word) : wordXYN (opField w) (xNibble w) (yNibble w) (nField w) = w := by
  have := w.isLt
  apply BitVec.eq_of_toNat_eq; rw [toNat_wordXYN, toNat_opField, toNat_xNibble, toNat_yNibble, toNat_nField]; omega

theorem wordA_fields (w : Word) : wordA (opField w) (nnnField w) = w := by
  have := w.isLt
  apply BitVec.eq_of_toNat_eq; rw [toNat_wordA, toNat_opField, toNat_nnnField]; omega

/-- A word read back from its two bytes (20_memory.md R53). -/
theorem wordOfBytes_bytesOfWord (w : Word) :
    wordOfBytes (w.extractLsb' 8 8) (w.extractLsb' 0 8) = w := by
  have := w.isLt
  apply BitVec.eq_of_toNat_eq
  rw [wordOfBytes, BitVec.toNat_append, ← Nat.shiftLeft_add_eq_or_of_lt (BitVec.isLt _), Nat.shiftLeft_eq]
  simp only [BitVec.extractLsb'_toNat, Nat.shiftRight_eq_div_pow]
  omega

end Sys2Proof
end

