-- ==== Sys2Proof/Laws/PerInstr.lean ====
section
/-! SUPPORT. The family RowPattern: the word of an instruction matches its row of the opcode map, `w & mask = match`
(30_encoding.md R75). -/

namespace Sys2Proof.Laws.RowPattern

/-- The encoding of `i` selects the row R75 gives `i`. -/
def Statement (i : Instr) : Prop := encode i &&& rowMask i = rowMatch i

theorem mask_F000 (w : Word) : w &&& 0xF000 = wordA (opField w) 0 := by
  refine BitVec.eq_of_getLsbD_eq fun i hi => ?_
  have hm : ∀ i < 16, (0xF000 : Word).getLsbD i = decide (12 ≤ i) := by decide
  rw [BitVec.getLsbD_and, hm i hi]
  simp only [wordA, opField, BitVec.getLsbD_append, BitVec.getLsbD_extractLsb']
  interval_cases i <;> simp

theorem mask_F0FF (w : Word) : w &&& 0xF0FF = wordXK (opField w) 0 (kkField w) := by
  refine BitVec.eq_of_getLsbD_eq fun i hi => ?_
  have hm : ∀ i < 16, (0xF0FF : Word).getLsbD i = decide (12 ≤ i ∨ i < 8) := by decide
  rw [BitVec.getLsbD_and, hm i hi]
  simp only [wordXK, opField, kkField, BitVec.getLsbD_append, BitVec.getLsbD_extractLsb']
  interval_cases i <;> simp

theorem mask_F00F (w : Word) : w &&& 0xF00F = wordXYN (opField w) 0 0 (nField w) := by
  refine BitVec.eq_of_getLsbD_eq fun i hi => ?_
  have hm : ∀ i < 16, (0xF00F : Word).getLsbD i = decide (12 ≤ i ∨ i < 4) := by decide
  rw [BitVec.getLsbD_and, hm i hi]
  simp only [wordXYN, opField, nField, BitVec.getLsbD_append, BitVec.getLsbD_extractLsb']
  interval_cases i <;> simp

theorem pattern_XK (op x : Nibble) (kk : Byte) : wordXK op x kk &&& 0xF000 = wordA op 0 := by rw [mask_F000]; simp
theorem pattern_XS (op x : Nibble) (kk : Byte) : wordXK op x kk &&& 0xF0FF = wordXK op 0 kk := by rw [mask_F0FF]; simp
theorem pattern_A (op : Nibble) (nnn : Addr) : wordA op nnn &&& 0xF000 = wordA op 0 := by rw [mask_F000]; simp
theorem pattern_XYU (op x y u : Nibble) : wordXYN op x y u &&& 0xF000 = wordA op 0 := by rw [mask_F000]; simp
theorem pattern_XY (op x y n : Nibble) : wordXYN op x y n &&& 0xF00F = wordXYN op 0 0 n := by rw [mask_F00F]; simp

theorem cls (u : Nibble) : Statement (.cls u) := (pattern_XS 0x0 u 0xE0).trans (by decide : _ = (0x00E0 : Word))
theorem ret (u : Nibble) : Statement (.ret u) := (pattern_XS 0x0 u 0xEE).trans (by decide : _ = (0x00EE : Word))
theorem jp (nnn : Addr) : Statement (.jp nnn) := (pattern_A 0x1 nnn).trans (by decide : _ = (0x1000 : Word))
theorem call (nnn : Addr) : Statement (.call nnn) := (pattern_A 0x2 nnn).trans (by decide : _ = (0x2000 : Word))
theorem seVxKk (x : RegIdx) (kk : Byte) : Statement (.seVxKk x kk) := (pattern_XK 0x3 (nib x) kk).trans (by decide : _ = (0x3000 : Word))
theorem sneVxKk (x : RegIdx) (kk : Byte) : Statement (.sneVxKk x kk) := (pattern_XK 0x4 (nib x) kk).trans (by decide : _ = (0x4000 : Word))
theorem seVxVy (x y : RegIdx) (u : Nibble) : Statement (.seVxVy x y u) :=
  (pattern_XYU 0x5 (nib x) (nib y) u).trans (by decide : _ = (0x5000 : Word))
theorem ldVxKk (x : RegIdx) (kk : Byte) : Statement (.ldVxKk x kk) := (pattern_XK 0x6 (nib x) kk).trans (by decide : _ = (0x6000 : Word))
theorem addVxKk (x : RegIdx) (kk : Byte) : Statement (.addVxKk x kk) := (pattern_XK 0x7 (nib x) kk).trans (by decide : _ = (0x7000 : Word))
theorem ldVxVy (x y : RegIdx) : Statement (.ldVxVy x y) := (pattern_XY 0x8 (nib x) (nib y) 0x0).trans (by decide : _ = (0x8000 : Word))
theorem orVxVy (x y : RegIdx) : Statement (.orVxVy x y) := (pattern_XY 0x8 (nib x) (nib y) 0x1).trans (by decide : _ = (0x8001 : Word))
theorem andVxVy (x y : RegIdx) : Statement (.andVxVy x y) := (pattern_XY 0x8 (nib x) (nib y) 0x2).trans (by decide : _ = (0x8002 : Word))
theorem xorVxVy (x y : RegIdx) : Statement (.xorVxVy x y) := (pattern_XY 0x8 (nib x) (nib y) 0x3).trans (by decide : _ = (0x8003 : Word))
theorem addVxVy (x y : RegIdx) : Statement (.addVxVy x y) := (pattern_XY 0x8 (nib x) (nib y) 0x4).trans (by decide : _ = (0x8004 : Word))
theorem subVxVy (x y : RegIdx) : Statement (.subVxVy x y) := (pattern_XY 0x8 (nib x) (nib y) 0x5).trans (by decide : _ = (0x8005 : Word))
theorem shrVx (x : RegIdx) (u : Nibble) : Statement (.shrVx x u) := (pattern_XY 0x8 (nib x) u 0x6).trans (by decide : _ = (0x8006 : Word))
theorem subnVxVy (x y : RegIdx) : Statement (.subnVxVy x y) := (pattern_XY 0x8 (nib x) (nib y) 0x7).trans (by decide : _ = (0x8007 : Word))
theorem shlVx (x : RegIdx) (u : Nibble) : Statement (.shlVx x u) := (pattern_XY 0x8 (nib x) u 0xE).trans (by decide : _ = (0x800E : Word))
theorem sneVxVy (x y : RegIdx) (u : Nibble) : Statement (.sneVxVy x y u) :=
  (pattern_XYU 0x9 (nib x) (nib y) u).trans (by decide : _ = (0x9000 : Word))
theorem ldINnn (nnn : Addr) : Statement (.ldINnn nnn) := (pattern_A 0xA nnn).trans (by decide : _ = (0xA000 : Word))
theorem jpV0Nnn (nnn : Addr) : Statement (.jpV0Nnn nnn) := (pattern_A 0xB nnn).trans (by decide : _ = (0xB000 : Word))
theorem rndVxKk (x : RegIdx) (kk : Byte) : Statement (.rndVxKk x kk) := (pattern_XK 0xC (nib x) kk).trans (by decide : _ = (0xC000 : Word))
theorem drwVxVyN (x y : RegIdx) (n : Nibble) : Statement (.drwVxVyN x y n) :=
  (pattern_XYU 0xD (nib x) (nib y) n).trans (by decide : _ = (0xD000 : Word))
theorem skpVx (x : RegIdx) : Statement (.skpVx x) := (pattern_XS 0xE (nib x) 0x9E).trans (by decide : _ = (0xE09E : Word))
theorem sknpVx (x : RegIdx) : Statement (.sknpVx x) := (pattern_XS 0xE (nib x) 0xA1).trans (by decide : _ = (0xE0A1 : Word))
theorem ldVxDt (x : RegIdx) : Statement (.ldVxDt x) := (pattern_XS 0xF (nib x) 0x07).trans (by decide : _ = (0xF007 : Word))
theorem ldVxK (x : RegIdx) : Statement (.ldVxK x) := (pattern_XS 0xF (nib x) 0x0A).trans (by decide : _ = (0xF00A : Word))
theorem ldDtVx (x : RegIdx) : Statement (.ldDtVx x) := (pattern_XS 0xF (nib x) 0x15).trans (by decide : _ = (0xF015 : Word))
theorem ldStVx (x : RegIdx) : Statement (.ldStVx x) := (pattern_XS 0xF (nib x) 0x18).trans (by decide : _ = (0xF018 : Word))
theorem addIVx (x : RegIdx) : Statement (.addIVx x) := (pattern_XS 0xF (nib x) 0x1E).trans (by decide : _ = (0xF01E : Word))
theorem ldFVx (x : RegIdx) : Statement (.ldFVx x) := (pattern_XS 0xF (nib x) 0x29).trans (by decide : _ = (0xF029 : Word))
theorem ldBVx (x : RegIdx) : Statement (.ldBVx x) := (pattern_XS 0xF (nib x) 0x33).trans (by decide : _ = (0xF033 : Word))
theorem ldMemVx (x : RegIdx) : Statement (.ldMemVx x) := (pattern_XS 0xF (nib x) 0x55).trans (by decide : _ = (0xF055 : Word))
theorem ldVxMem (x : RegIdx) : Statement (.ldVxMem x) := (pattern_XS 0xF (nib x) 0x65).trans (by decide : _ = (0xF065 : Word))
theorem unknown (w : Word) : Statement (.unknown w) := BitVec.and_zero

end Sys2Proof.Laws.RowPattern
end

