-- ==== Sys2Proof/Laws/Step.lean ====
section
/-! SUPPORT. Inversion lemmas: everything the transition function, a check, a key operand and the two orders of flag and
result can do, each said once. -/

namespace Sys2Proof.Machine

/-! ## Checks and operands -/

@[simp] theorem checked_none (i : Instr) (s t : State) : checked none i s t = t := rfl

@[simp] theorem checked_some (c : FaultCause) (i : Instr) (s t : State) : checked (some c) i s t = takeFault c i s := rfl

/-- A checked instruction either has its effect or takes the fault its check names. -/
theorem checked_cases (c : Option FaultCause) (i : Instr) (s t : State) :
    (c = none ∧ checked c i s t = t) ∨ ∃ f, c = some f ∧ checked c i s t = takeFault f i s := by
  cases c with
  | none => exact .inl ⟨rfl, rfl⟩
  | some f => exact .inr ⟨f, rfl, rfl⟩

/-- `DRW` passes its check when it reads no row or all of them exist (R142). -/
theorem checkSprite_eq_none {n : Nibble} {s : State} :
    checkSprite n s = none ↔ n = 0 ∨ s.ireg.toNat + n.toNat - 1 ≤ 0xFFF := by
  by_cases h : n = 0
  · simp [checkSprite, h]
  · have : n.toNat ≠ 0 := fun e => h (BitVec.eq_of_toNat_eq e)
    have e : effAddr s (n.toNat - 1) = s.ireg.toNat + n.toNat - 1 := by simp only [effAddr]; omega
    simp only [checkSprite, h, if_false, checkRead_eq_none, e, false_or]

/-- `Vx` names a key exactly when it is at most 15 (R150). -/
theorem keyOperand_eq_none {s : State} {x : RegIdx} : keyOperand s x = none ↔ 15 < (s.reg x).toNat := by
  by_cases h : (s.reg x).toNat < 16
  · simp only [keyOperand, h, dif_pos, reduceCtorEq, false_iff]; omega
  · simp only [keyOperand, h, not_false_eq_true, dif_neg, true_iff]; omega

/-- The key named by `Vx` has the number in `Vx` (R150). -/
theorem keyOperand_eq_some {s : State} {x : RegIdx} {k : KeyIdx} : keyOperand s x = some k ↔ (s.reg x).toNat = k.val := by
  by_cases h : (s.reg x).toNat < 16
  · simp only [keyOperand, h, dif_pos, Option.some.injEq, Fin.ext_iff]
  · have := k.isLt
    simp only [keyOperand, h, not_false_eq_true, dif_neg, reduceCtorEq, false_iff]; omega

/-! ## The two orders of flag and result (R122) -/

/-- `ADD`, `SUB`, `SUBN`: the flag is what remains in `VF`. -/
theorem reg_resultThenFlag (x y : RegIdx) (r : Byte) (c : Bool) (s : State) :
    (resultThenFlag x r c s).reg y = if y = vf then (if c then 1 else 0) else if y = x then r else s.reg y := by
  simp [resultThenFlag]

theorem resultThenFlag_eq (x : RegIdx) (r : Byte) (c : Bool) (s : State) :
    resultThenFlag x r c s = { s.advance with v := (resultThenFlag x r c s).v } := rfl

/-- `SHR`, `SHL`: the shift is what remains in `Vx`, of the flag where `Vx` is `VF`. -/
theorem reg_flagThenShift (x y : RegIdx) (c : Bool) (f : Byte → Byte) (s : State) :
    (flagThenShift x c f s).reg y
      = if y = x then f (if x = vf then (if c then 1 else 0) else s.reg x)
        else if y = vf then (if c then 1 else 0) else s.reg y := by
  simp [flagThenShift]

theorem flagThenShift_eq (x : RegIdx) (c : Bool) (f : Byte → Byte) (s : State) :
    flagThenShift x c f s = { s.advance with v := (flagThenShift x c f s).v } := rfl

/-! ## Drawing (R142) -/

/-- `DRW` past its check changes the framebuffer and `VF` alone. -/
theorem drawEffect_eq (x y : RegIdx) (n : Nibble) (s : State) :
    drawEffect x y n s = { s with fb := (drawEffect x y n s).fb, v := (drawEffect x y n s).v } := rfl

/-- The pixels of the sprite `DRW` draws: its origin is read after `VF` was reset. -/
def drawCells (x y : RegIdx) (n : Nibble) (s : State) : List (Fin 64 × Fin 32) :=
  spriteCells s (((if x = vf then 0 else s.reg x) : Byte).toNat % 64) (((if y = vf then 0 else s.reg y) : Byte).toNat % 32)
    n.toNat

/-- What `DRW` past its check leaves: the sprite's pixels inverted, and in `VF` whether one of them was lit. -/
theorem drawEffect_spec (x y : RegIdx) (n : Nibble) (s : State) :
    (∀ px py, (drawEffect x y n s).fb.pixel px py
      = (s.fb.pixel px py ^^ decide ((px, py) ∈ drawCells x y n s))) ∧
    (∀ r : RegIdx, r ≠ vf → (drawEffect x y n s).reg r = s.reg r) ∧
    ((drawEffect x y n s).reg vf = 0 ∨ (drawEffect x y n s).reg vf = 1) ∧
    ((drawEffect x y n s).reg vf = 1 ↔ ∃ p ∈ drawCells x y n s, s.fb.pixel p.1 p.2 = true) := by
  have hx : ∀ z : RegIdx, (s.setFlag false).reg z = if z = vf then 0 else s.reg z := fun z => by simp
  have hc : drawSprite (s.setFlag false) (((s.setFlag false).reg x).toNat % 64) (((s.setFlag false).reg y).toNat % 32)
      n.toNat = (drawCells x y n s).foldl plot { fb := s.fb, hit := false } := by
    rw [hx, hx]; rfl
  obtain ⟨h1, h2⟩ := plot_fold (drawCells x y n s)
    (nodup_spriteCells s _ _ n.toNat (by have := n.isLt; omega)) { fb := s.fb, hit := false }
  have hv : ∀ r : RegIdx, (drawEffect x y n s).reg r = if r = vf
      then (if ((drawCells x y n s).foldl plot { fb := s.fb, hit := false }).hit then 1 else 0) else s.reg r := by
    intro r
    have e : drawEffect x y n s = ((s.setFlag false).setFb ((drawCells x y n s).foldl plot { fb := s.fb, hit := false }).fb).setFlag
        ((drawCells x y n s).foldl plot { fb := s.fb, hit := false }).hit := by rw [← hc]; rfl
    rw [e, reg_setFlag, reg_setFb, hx]
    by_cases h : r = vf <;> simp only [h, if_true, if_false]
  refine ⟨fun px py => ?_, fun r hr => by rw [hv, if_neg hr], ?_, ?_⟩
  · rw [← h1 px py, ← hc]; rfl
  · rw [hv, if_pos rfl]; split <;> simp
  · rw [hv, if_pos rfl]
    have : ∀ b : Bool, ((if b then 1 else 0 : Byte) = 1) ↔ b = true := by decide
    rw [this, h2]
    simp

/-! ## Transitions (60_exceptions.md R180) -/

/-- Everything a transition to a next state can be. -/
theorem stepWith_cases {P : Config.Params} {q : FrameRequest} {s t : State} (h : stepWith P q s = .next t) :
    (s.frame = none ∧ s.fault ≠ none ∧ t = s) ∨
    (s.frame = none ∧ s.fault = none ∧ s.rom ≠ .rejected ∧ t = beginFrame P q s) ∨
    (∃ f, s.frame = some f ∧ (f.slots = 0 ∨ stepEnabled P s = false) ∧ t = endFrame f s) ∨
    (∃ f w, s.frame = some f ∧ f.slots ≠ 0 ∧ stepEnabled P s = true ∧ fetch s = some w ∧
      exec (decode w) (takeSlot f (decode w) s) = .next t) := by
  unfold stepWith at h
  cases hf : s.frame with
  | none =>
    rw [hf] at h
    dsimp only at h
    split at h
    · rename_i hs
      cases h
      exact .inl ⟨rfl, fun e => by simp [e] at hs, rfl⟩
    · rename_i hs
      split at h
      · cases h
      · rename_i hr
        cases h
        exact .inr (.inl ⟨rfl, by simpa using hs, hr, rfl⟩)
  | some f =>
    rw [hf] at h
    dsimp only at h
    split at h
    · rename_i hs
      unfold slotStep at h
      split at h
      · rename_i w hw
        exact .inr (.inr (.inr ⟨f, w, rfl, hs.1, hs.2, hw, h⟩))
      · cases h
    · rename_i hs
      cases h
      refine .inr (.inr (.inl ⟨f, rfl, ?_, rfl⟩))
      by_cases h0 : f.slots = 0
      · exact .inl h0
      · exact .inr (by simpa [h0] using hs)

/-- The guard of R90. -/
theorem stepEnabled_iff {P : Config.Params} {s : State} :
    stepEnabled P s = true ↔ s.fault = none ∧ s.pc.toNat < P.pcLimit := by
  simp [stepEnabled]

/-- With `PC_LIMIT` at most 0xFFF an enabled fetch stays in memory (20_memory.md R54). -/
theorem fetch_of_enabled {P : Config.Params} {s : State} (hP : P.ok) (h : stepEnabled P s = true) :
    fetch s = some (s.readWord s.pc.toNat) := by
  have h1 := (stepEnabled_iff.1 h).2
  have h2 := hP.2
  rw [fetch, if_pos (show s.pc.toNat + 1 < Config.memSize by simp only [Config.memSize]; omega)]

/-- The timer phase changes the timers, `sound_prev` and the events alone, and only if it runs. -/
theorem timerPhase_cases (d : Bool) (s : State) :
    (s.fault = none ∧ d = true ∧ timerPhase d s = timerTick s) ∨ ((s.fault ≠ none ∨ d = false) ∧ timerPhase d s = s) := by
  cases hf : s.fault <;> cases d <;> simp [timerPhase, hf]

end Sys2Proof.Machine
end

