-- ==== Sys2Proof/Tests/Slice0.lean ====
section
/-! SUPPORT. Tests on fixed values. Expected results are the spec's: 95_test_vectors.md, by the vector's id, and the
encodings of 30_encoding.md R75 written out bit by bit. -/

namespace Sys2Proof.Tests

open Sys2Proof Sys2Proof.Machine

/-! ## Well-formedness: an ill-formed term for the one check -/

theorem test_wellFormed_refuses_unknown_of_known_word : (Instr.unknown 0x00E0).wellFormed = false := by decide
theorem test_wellFormed_refuses_unknown_of_family8 : (Instr.unknown 0x8AB4).wellFormed = false := by decide
theorem test_wellFormed_refuses_unknown_of_familyE : (Instr.unknown 0xE3A1).wellFormed = false := by decide
theorem test_wellFormed_refuses_unknown_of_familyF : (Instr.unknown 0xF965).wellFormed = false := by decide
theorem test_wellFormed_refuses_unknown_of_family5 : (Instr.unknown 0x5122).wellFormed = false := by decide
theorem test_wellFormed_accepts_unknown_word : (Instr.unknown 0x8ABF).wellFormed = true := by decide

/-! ## Decoding: each row's word, bit by bit -/

theorem test_decode_cls : decode 0b0000000011100000 = .cls 0 := by decide
theorem test_decode_cls_ignored_bits : decode 0b0000111111100000 = .cls 0xF := by decide
theorem test_decode_ret : decode 0b0000000011101110 = .ret 0 := by decide
theorem test_decode_jp : decode 0b0001001000110100 = .jp 0x234 := by decide
theorem test_decode_call : decode 0b0010001100000000 = .call 0x300 := by decide
theorem test_decode_seVxKk : decode 0b0011101001000010 = .seVxKk 0xA 0x42 := by decide
theorem test_decode_sneVxKk : decode 0b0100101001000010 = .sneVxKk 0xA 0x42 := by decide
theorem test_decode_seVxVy : decode 0b0101000100100111 = .seVxVy 1 2 7 := by decide
theorem test_decode_ldVxKk : decode 0b0110000000001100 = .ldVxKk 0 0x0C := by decide
theorem test_decode_addVxKk : decode 0b0111101000000001 = .addVxKk 0xA 0x01 := by decide
theorem test_decode_ldVxVy : decode 0b1000000100100000 = .ldVxVy 1 2 := by decide
theorem test_decode_orVxVy : decode 0b1000000100100001 = .orVxVy 1 2 := by decide
theorem test_decode_andVxVy : decode 0b1000000100100010 = .andVxVy 1 2 := by decide
theorem test_decode_xorVxVy : decode 0b1000000100100011 = .xorVxVy 1 2 := by decide
theorem test_decode_addVxVy : decode 0b1000101010110100 = .addVxVy 0xA 0xB := by decide
theorem test_decode_subVxVy : decode 0b1000000100100101 = .subVxVy 1 2 := by decide
theorem test_decode_shrVx : decode 0b1000000100100110 = .shrVx 1 2 := by decide
theorem test_decode_subnVxVy : decode 0b1000000100100111 = .subnVxVy 1 2 := by decide
theorem test_decode_shlVx : decode 0b1000000100101110 = .shlVx 1 2 := by decide
theorem test_decode_sneVxVy : decode 0b1001000100101111 = .sneVxVy 1 2 0xF := by decide
theorem test_decode_ldINnn : decode 0b1010001000110100 = .ldINnn 0x234 := by decide
theorem test_decode_jpV0Nnn : decode 0b1011001100000000 = .jpV0Nnn 0x300 := by decide
theorem test_decode_rndVxKk : decode 0b1100000100001111 = .rndVxKk 1 0x0F := by decide
theorem test_decode_drwVxVyN : decode 0b1101011110100101 = .drwVxVyN 7 0xA 5 := by decide
theorem test_decode_skpVx : decode 0b1110000110011110 = .skpVx 1 := by decide
theorem test_decode_sknpVx : decode 0b1110000110100001 = .sknpVx 1 := by decide
theorem test_decode_ldVxDt : decode 0b1111000100000111 = .ldVxDt 1 := by decide
theorem test_decode_ldVxK : decode 0b1111001100001010 = .ldVxK 3 := by decide
theorem test_decode_ldDtVx : decode 0b1111000100010101 = .ldDtVx 1 := by decide
theorem test_decode_ldStVx : decode 0b1111000100011000 = .ldStVx 1 := by decide
theorem test_decode_addIVx : decode 0b1111000100011110 = .addIVx 1 := by decide
theorem test_decode_ldFVx : decode 0b1111000100101001 = .ldFVx 1 := by decide
theorem test_decode_ldBVx : decode 0b1111000100110011 = .ldBVx 1 := by decide
theorem test_decode_ldMemVx : decode 0b1111001001010101 = .ldMemVx 2 := by decide
theorem test_decode_ldVxMem : decode 0b1111100101100101 = .ldVxMem 9 := by decide
theorem test_decode_unknown : [0x0000, 0x0123, 0x00E1, 0x00FB, 0x8128, 0x812F, 0xE19F, 0xE100, 0xF100, 0xF145,
    0xF1FF].map decode = [0x0000, 0x0123, 0x00E1, 0x00FB, 0x8128, 0x812F, 0xE19F, 0xE100, 0xF100, 0xF145,
    0xF1FF].map Instr.unknown := by decide
theorem test_decodeBytes_big_endian : (decodeBytes [0x12, 0x34, 0x56]).toOption = some (.jp 0x234, [0x56]) := by decide
theorem test_decodeBytes_refuses_one_byte : (match decodeBytes [0x12] with
    | .error .truncated => true | .ok _ => false) = true := by decide

/-! ## One step from a small state -/

/-- Reset with some registers and `I` set. -/
def start (regs : List (RegIdx × Byte)) (i : Word) : State :=
  regs.foldl (fun s p => s.setReg p.1 p.2) (State.reset.setI i)

/-- One step of the instruction `w` placed at `PC`, seen through `f`. -/
def after {α : Type} (w : Nat) (s : State) (f : State → α) : Option α :=
  match step (s.withFetchWord 16 w) with
  | .next t => some (f t)
  | .fault _ => none
  | .refused _ => none

/-- The fault latch as (code, address, word). -/
def latch (s : State) : Option (Nat × Nat × Nat) :=
  s.fault.map fun r => (r.cause.code, r.addr.toNat, r.word.toNat)

/-- The lit pixels of one row, as its 64-bit value. -/
def row (s : State) (y : Fin 32) : Nat := s.fb[y].toNat

theorem test_jp : after 0x1234 State.reset (·.pc) = some 0x234 := by decide
theorem test_call : after 0x2300 State.reset (fun t => (t.stack[0], t.sp, t.pc)) = some (0x202, 1, 0x300) := by decide
theorem test_call_overflow : after 0x2300 { State.reset with sp := 16 } (fun t => (latch t, t.pc, t.sp))
    = some (some (1, 0x200, 0x2300), 0x202, 16) := by decide
theorem test_ret : after 0x00EE { State.reset with sp := 1, stack := State.reset.stack.set 0 0x456 }
    (fun t => (t.pc, t.sp, t.stack[0])) = some (0x456, 0, 0x456) := by decide
theorem test_ret_underflow : after 0x01EE State.reset (fun t => (latch t, t.pc)) = some (some (2, 0x200, 0x01EE), 0x202) := by
  decide
theorem test_seVxKk_taken : after 0x3A42 (start [(10, 0x42)] 0) (·.pc) = some 0x204 := by decide
theorem test_seVxKk_parks : after 0x3000 { State.reset with pc := 0xFFC } (fun t => (t.pc, t.fault)) = some (0x1000, none) := by
  decide
theorem test_sneVxKk : after 0x4A42 (start [(10, 0x42)] 0) (·.pc) = some 0x202 := by decide
theorem test_sneVxKk_taken : after 0x4A42 (start [(10, 0x43)] 0) (·.pc) = some 0x204 := by decide
theorem test_seVxVy_ignored_bits : after 0x5127 (start [(1, 7), (2, 7)] 0) (·.pc) = some 0x204 := by decide
theorem test_seVxVy : after 0x5120 (start [(1, 7), (2, 8)] 0) (·.pc) = some 0x202 := by decide
theorem test_sneVxVy_ignored_bits : after 0x912F (start [(1, 7), (2, 8)] 0) (·.pc) = some 0x204 := by decide
theorem test_jpV0Nnn_not_wrapped : after 0xBFFF (start [(0, 0xFF)] 0) (·.pc) = some 0x10FE := by decide
theorem test_jpV0Nnn : after 0xB300 (start [(0, 0x10)] 0) (·.pc) = some 0x310 := by decide
theorem test_ldVxKk : after 0x6ABC State.reset (fun t => (t.reg 10, t.pc)) = some (0xBC, 0x202) := by decide
theorem test_addVxKk_no_flag : after 0x7A10 (start [(10, 0xF8), (15, 1)] 0) (fun t => (t.reg 10, t.reg 15))
    = some (0x08, 0x01) := by decide
theorem test_addVxKk_vf : after 0x7F01 (start [(15, 0xFF)] 0) (·.reg 15) = some 0 := by decide
theorem test_ldVxVy : after 0x8120 (start [(1, 1), (2, 0x99)] 0) (·.reg 1) = some 0x99 := by decide
theorem test_orVxVy : after 0x8121 (start [(1, 0xF0), (2, 0x0F), (15, 1)] 0) (fun t => (t.reg 1, t.reg 15))
    = some (0xFF, 1) := by decide
theorem test_andVxVy : after 0x8122 (start [(1, 0xF0), (2, 0x3C)] 0) (·.reg 1) = some 0x30 := by decide
theorem test_xorVxVy : after 0x8123 (start [(1, 0xF0), (2, 0x3C)] 0) (·.reg 1) = some 0xCC := by decide
theorem test_addVxVy_carry : after 0x8124 (start [(1, 0xC8), (2, 0x64)] 0) (fun t => (t.reg 1, t.reg 15))
    = some (0x2C, 1) := by decide
theorem test_addVxVy_vf_flag_last : after 0x8F14 (start [(15, 0xF0), (1, 0x20)] 0) (·.reg 15) = some 1 := by decide
theorem test_subVxVy_borrow : after 0x8125 (start [(1, 3), (2, 5)] 0) (fun t => (t.reg 1, t.reg 15)) = some (0xFE, 0) := by
  decide
theorem test_subVxVy_vf_source : after 0x81F5 (start [(1, 5), (15, 9)] 0) (fun t => (t.reg 1, t.reg 15))
    = some (0xFC, 0) := by decide
theorem test_shrVx_ignores_y : after 0x8126 (start [(1, 0xFF)] 0) (fun t => (t.reg 1, t.reg 15, t.reg 2))
    = some (0x7F, 1, 0) := by decide
theorem test_shrVx_vf : after 0x8F06 (start [(15, 3)] 0) (·.reg 15) = some 0 := by decide
theorem test_subnVxVy : after 0x8127 (start [(1, 5), (2, 3)] 0) (fun t => (t.reg 1, t.reg 15)) = some (0xFE, 0) := by decide
theorem test_subnVxVy_equal : after 0x8127 (start [(1, 5), (2, 5)] 0) (fun t => (t.reg 1, t.reg 15)) = some (0, 1) := by
  decide
theorem test_shlVx : after 0x810E (start [(1, 0x81)] 0) (fun t => (t.reg 1, t.reg 15)) = some (0x02, 1) := by decide
theorem test_shlVx_vf : after 0x8F0E (start [(15, 0x80)] 0) (·.reg 15) = some 2 := by decide
theorem test_ldINnn : after 0xA234 State.reset (fun t => (t.ireg, t.pc)) = some (0x234, 0x202) := by decide
theorem test_rndVxKk_masked : after 0xC100 (start [(1, 0x55)] 0) (fun t => (t.draws, t.pc)) = some (1, 0x202) := by decide
/-- The example of R126 with the byte supplied by the frame request. -/
theorem test_rndVxKk_supplied : after 0xC30F { State.reset with rndIn := [0xB7, 0x01] } (fun t => (t.reg 3, t.rndIn, t.draws))
    = some (0x07, [0x01], 1) := by decide
theorem test_addIVx_wraps : after 0xF11E (start [(1, 2), (15, 7)] 0xFFFF) (fun t => (t.ireg, t.reg 15)) = some (1, 7) := by
  decide
theorem test_addIVx_keeps_17th_bit : after 0xF11E (start [(1, 1)] 0x0FFF) (·.ireg) = some 0x1000 := by decide
theorem test_ldFVx : after 0xF129 (start [(1, 0x1A)] 0) (·.ireg) = some 0x32 := by decide
theorem test_ldBVx : after 0xF133 (start [(1, 0xFE)] 0x300) (fun t => [t.readByte 0x300, t.readByte 0x301, t.readByte 0x302])
    = some [2, 5, 4] := by decide
theorem test_ldBVx_font : after 0xF133 (start [(1, 0xFF)] 0x04F) (fun t => (latch t, t.readByte 0x4F))
    = some (some (4, 0x200, 0xF133), 0x80) := by decide
theorem test_ldMemVx : after 0xF255 (start [(0, 0x11), (1, 0x22), (2, 0x33), (3, 0x44)] 0x400)
    (fun t => ([t.readByte 0x400, t.readByte 0x401, t.readByte 0x402, t.readByte 0x403], t.ireg))
    = some ([0x11, 0x22, 0x33, 0], 0x400) := by decide
theorem test_ldMemVx_address_fault : after 0xF155 (start [(0, 0x11)] 0xFFF) (fun t => (latch t, t.readByte 0xFFF, t.pc))
    = some (some (3, 0x200, 0xF155), 0, 0x202) := by decide
theorem test_ldVxMem_font : after 0xF365 (start [(4, 0x77)] 0) (fun t => [t.reg 0, t.reg 1, t.reg 2, t.reg 3, t.reg 4])
    = some [0xF0, 0x90, 0x90, 0x90, 0x77] := by decide
theorem test_ldVxMem_own_code : after 0xF165 (start [] 0x200) (fun t => (t.reg 0, t.reg 1)) = some (0xF1, 0x65) := by decide
theorem test_cls : after 0x0FE0 { start [(15, 1)] 0 with fb := Vector.replicate 32 0xFFFFFFFFFFFFFFFF }
    (fun t => (t.fb, t.reg 15)) = some (Framebuffer.clear, 1) := by decide
/-- Vector D1: glyph 0 at the origin, `F0 90 90 90 F0`, bit 7 leftmost. -/
theorem test_drwVxVyN : after 0xD015 State.reset (fun t => (([0, 1, 2, 3, 4, 5] : List (Fin 32)).map (row t), t.reg 15))
    = some ([0xF, 0x9, 0x9, 0x9, 0xF, 0], 0) := by decide
/-- Vector D7: the x coordinate is read after `VF` was reset (decision D14). -/
theorem test_drwVxVyN_vf : after 0xDF11 ((start [(15, 9), (1, 3)] 0x300).writeByte 0x300 0x80)
    (fun t => (row t 3, t.reg 15)) = some (1, 0) := by decide
theorem test_skpVx : after 0xE59E { start [(5, 0x0A)] 0 with keys := 0x0400 } (·.pc) = some 0x204 := by decide
theorem test_skpVx_fault : after 0xE19E { start [(1, 0x10)] 0 with keys := 0xFFFF } (fun t => (latch t, t.pc))
    = some (some (5, 0x200, 0xE19E), 0x202) := by decide
theorem test_sknpVx : after 0xE1A1 { start [(1, 4)] 0 with keys := 0x0010 } (·.pc) = some 0x202 := by decide
theorem test_sknpVx_taken : after 0xE1A1 (start [(1, 4)] 0) (·.pc) = some 0x204 := by decide
theorem test_ldVxK_blocks : after 0xF30A (start [(3, 9)] 0) (fun t => (t.pc, t.reg 3)) = some (0x200, 9) := by decide
theorem test_ldVxK_lowest : after 0xF30A { State.reset with keys := 0x0090 } (fun t => (t.pc, t.reg 3)) = some (0x202, 4) := by
  decide
theorem test_ldVxDt : after 0xF107 { State.reset with dt := 0x2A } (fun t => (t.reg 1, t.dt)) = some (0x2A, 0x2A) := by decide
theorem test_ldDtVx : after 0xF115 (start [(1, 0x3C)] 0) (·.dt) = some 0x3C := by decide
theorem test_ldStVx : after 0xF118 (start [(1, 5)] 0) (fun t => (t.st, t.out)) = some (5, []) := by decide
theorem test_unknown : after 0x8ABF State.reset (fun t => (t.pc, t.out)) = some (0x202, [.unknownOpcode 0x200 0x8ABF]) := by
  decide

/-! ## Frames, the host and the trace (95_test_vectors.md Parts 1 and 4) -/

/-- Vector T2 and T3(a): the floor at zero and the sound edge. -/
theorem test_timerTick_edge : (timerTick { State.reset with dt := 1, st := 1 } |> fun t => (t.dt, t.st, t.soundPrev, t.out))
    = (0, 0, false, [.soundEdge]) := by decide
/-- Vector T3(b): a reload while the sound is on is no new edge. -/
theorem test_timerTick_no_edge : (timerTick { State.reset with st := 5, soundPrev := true } |>
    fun t => (t.dt, t.st, t.soundPrev, t.out)) = (0, 4, true, []) := by decide
/-- Vector T4: a parked core keeps its timers counting and takes the key push. -/
theorem test_runFrame_parked : (match runFrame Config.params { keysIn := 0x90, tickDue := true, debug := false }
    { State.reset with pc := 0xFFE, dt := 3 } with
    | .next t => (t.pc, t.dt, t.keys, t.frame) | .fault _ => (0, 0, 0, none) | .refused _ => (0, 0, 0, none))
    = (0xFFE, 2, 0x90, none) := by decide
/-- Vector T5: `RET` on an empty stack faults in the first slot, and the timer phase is skipped. -/
theorem test_runFrame_faults : (match runFrame Config.params { keysIn := 0, tickDue := true, debug := false }
    { State.reset with dt := 3, mem := State.reset.mem.writeAll 0x200 [0x00, 0xEE] } with
    | .next t => (latch t, t.pc, t.dt) | .fault _ => (none, 0, 0) | .refused _ => (none, 0, 0))
    = (some (2, 0x200, 0x00EE), 0x202, 3) := by decide
/-- Vector S3: 3585 bytes are refused and memory is untouched. -/
theorem test_loadRom_too_large : ((loadRom (List.replicate 3585 0xFF) State.reset).2,
    (loadRom (List.replicate 3585 0xFF) State.reset).1.mem) = (.romTooLarge, State.reset.mem) := by decide +kernel
/-- Vector S1: the ROM `A2 34 60 00`, its first word. -/
theorem test_loadRom : ((loadRom [0xA2, 0x34, 0x60, 0x00] State.reset).1.readWord 0x200) = 0xA234 := by decide
/-- Vector S4: the trace line of the source's example. -/
theorem test_traceLine : traceLine (traceRecord (.ldVxKk 0 0x0C) State.reset) =
    "PC:0200 V0:00 V1:00 V2:00 V3:00 V4:00 V5:00 V6:00 V7:00 V8:00 V9:00 VA:00 VB:00 VC:00 VD:00 VE:00 VF:00 I:0000 DT:00 ST:00 LD V0, 0x0C" := by
  decide +kernel
/-- Another `FONT`, installed by reset. -/
theorem test_resetWith_font : ([0x000, 0x04F, 0x050] : List Nat).map (State.resetWith
    { Config.params with font := Vector.replicate 80 0x5A }).readByte = [0x5A, 0x5A, 0] := by decide
theorem test_reset_inv : State.reset.mem.wf = true := by decide

/-! ## Witnesses: for every statement with hypotheses, a state and operands that meet all of them together

The name after `witness_` is the obligation's. Where a statement has several clauses, each has its own line, at the
boundary of its range. -/

/-- Reset with a frame in progress. -/
def inFrame (slots : Nat) (s : State) : State := { s with frame := some { slots := slots, tickDue := true, debug := true } }

/-- Reset with a latched fault, `PC` after the faulting instruction. -/
def faulted : State :=
  { State.reset with pc := 0x202, fault := some { cause := .stackUnderflow, addr := 0x200, word := 0x00EE } }

/-- Reset with bytes from 0x200. -/
def withCode (bytes : List Byte) : State := { State.reset with mem := State.reset.mem.writeAll 0x200 bytes }

/-- A result that is a next state of which `p` holds. -/
def Leads (p : State → Prop) (r : Result) : Prop := ∃ t, r = .next t ∧ p t

theorem witness_RomLoadCopiesVerbatim : loadAdmitted State.reset = true ∧ (List.replicate 3584 (1 : Byte)).length ≤ 3584 ∧
    0x200 + 3583 = 0xFFF ∧ ¬ (0x200 ≤ 0x1FF ∧ 0x1FF < 0x200 + 3584) := by
  refine ⟨by decide, ?_, rfl, by decide⟩
  rw [List.length_replicate]
theorem witness_RomTooLargeWritesNothing : loadAdmitted State.reset = true ∧ State.reset.fault = none ∧
    3584 < (List.replicate 3585 (1 : Byte)).length := by
  refine ⟨by decide, rfl, ?_⟩
  rw [List.length_replicate]
  decide
theorem witness_DecodeOfEncode : (Instr.unknown 0x00E1).wellFormed = true ∧ (Instr.cls 0xF).wellFormed = true ∧
    (Instr.drwVxVyN 15 15 15).wellFormed = true := by decide
theorem witness_MatchingWordDecodesToItsRow : (0x512F : Word) &&& rowMask (.seVxVy 0 0 0) = rowMatch (.seVxVy 0 0 0) ∧
    ∀ v, Instr.seVxVy 0 0 0 ≠ .unknown v := ⟨by decide, fun _ h => Instr.noConfusion h⟩

theorem witness_StepRunsTheDecodedInstruction_slot : ∃ f, (inFrame 1 { State.reset with pc := 0x0FFD }).frame = some f ∧
    f.slots ≠ 0 ∧ State.reset.fault = none ∧ (0x0FFD : Word).toNat < 0x0FFE ∧
    (decodeBytes [State.reset.readByte 0x0FFD, State.reset.readByte 0x0FFE]).toOption = some (.unknown 0, []) :=
  ⟨_, rfl, by decide, rfl, by decide, by decide⟩
theorem witness_StepRunsTheDecodedInstruction_between : State.reset.frame = none ∧ State.reset.fault = none ∧
    State.reset.rom ≠ .rejected := by decide
theorem witness_StepRunsTheDecodedInstruction_after :
    (∃ f, (inFrame 0 State.reset).frame = some f ∧ f.slots = 0) ∧
    (∃ f, (inFrame 3 faulted).frame = some f ∧ (inFrame 3 faulted).fault ≠ none) ∧
    (∃ f, (inFrame 3 { State.reset with pc := 0x0FFE }).frame = some f ∧ 0x0FFE ≤ (0x0FFE : Word).toNat) :=
  ⟨⟨_, rfl, rfl⟩, ⟨_, rfl, by decide⟩, ⟨_, rfl, by decide⟩⟩
theorem witness_KeysChangeOnlyAtFrameStart :
    Leads (fun t => t.keys ≠ State.reset.keys)
      (stepWith Config.params { keysIn := 0x8001, tickDue := false, debug := false } State.reset) := ⟨_, rfl, by decide⟩
theorem witness_FrameIsItsTransitions : State.reset.frame = none ∧ State.reset.fault = none ∧
    State.reset.rom ≠ .rejected := by decide
theorem witness_FrozenCoreChangesNothing : faulted.fault ≠ none ∧ faulted.frame = none ∧
    (inFrame 2 faulted).fault ≠ none := by decide
theorem witness_ParkedCoreOnlyTicks : State.reset.frame = none ∧ State.reset.fault = none ∧ State.reset.rom ≠ .rejected ∧
    Config.params.pcLimit ≤ (0x0FFE : Word).toNat := by decide
theorem witness_BlockedOrSpinningCoreStaysSo_blocked : Config.params.ok ∧
    (inFrame 1 (withCode [0xF3, 0x0A])).blocked Config.params :=
  ⟨⟨by decide, by decide⟩, by decide, ⟨3, by decide⟩, rfl⟩
theorem witness_BlockedOrSpinningCoreStaysSo_spinning : Config.params.ok ∧
    (inFrame 1 (withCode [0x12, 0x00])).spinning Config.params :=
  ⟨⟨by decide, by decide⟩, by decide, 0x200, by decide, by decide⟩
theorem witness_SoundEdgeOncePerRise : ({ State.reset with st := 1 } : State).st ≠ 0 ∧
    ({ State.reset with st := 1 } : State).soundPrev = false := by decide
theorem witness_TickDoesNotDependOnTheSlots_ends :
    Leads (fun u => u.fault = none) (runSlots Config.params 0 (beginFrame Config.params
      { keysIn := 0, tickDue := true, debug := false } State.reset)) ∧
    State.reset.frame = none ∧ State.reset.fault = none := ⟨⟨_, rfl, by decide⟩, rfl, rfl⟩
theorem witness_TickDoesNotDependOnTheSlots_faults :
    Leads (fun u => u.fault ≠ none) (runSlots Config.params Config.params.ipf (beginFrame Config.params
      { keysIn := 0, tickDue := true, debug := false } (withCode [0x00, 0xEE]))) := ⟨_, rfl, by decide⟩
theorem witness_InstructionsOnlySetTimers :
    Leads (fun t => t.dt ≠ 0) (exec (.ldDtVx 1) (start [(1, 7)] 0)) ∧
    Leads (fun t => t.st ≠ 0) (exec (.ldStVx 1) (start [(1, 7)] 0)) := ⟨⟨_, rfl, by decide⟩, ⟨_, rfl, by decide⟩⟩
theorem witness_InstructionsKeepTheRest : Leads (fun t => t.pc = 0x202) (exec (.cls 0) State.reset) := ⟨_, rfl, by decide⟩
theorem witness_EventsAreNeverRead : Leads (fun t => t.out ≠ []) (exec (.unknown 0) State.reset) := ⟨_, rfl, by decide⟩
theorem witness_RegistersChangeOnlyAsDestinations : (3 : RegIdx) ∉ mayWrite (.addVxVy 2 1) ∧
    Leads (fun t => t.reg 2 = 5) (exec (.addVxVy 2 1) (start [(1, 5)] 0)) := ⟨by decide, _, rfl, by decide⟩
theorem witness_MemoryChangesOnlyByStores :
    Leads (fun t => t.readByte 0x052 ≠ 0) (exec (.ldBVx 1) (start [(1, 7)] 0x050)) ∧
    Leads (fun t => t.readByte 0xFFF ≠ 0) (exec (.ldMemVx 15) (start [(15, 7)] 0xFF0)) :=
  ⟨⟨_, rfl, by decide⟩, ⟨_, rfl, by decide⟩⟩
theorem witness_RaisingChangesOnlyLatchAndPc : State.reset.fault = none ∧
    Leads (fun t => t.fault ≠ none) (exec (.ret 0) State.reset) := ⟨rfl, _, rfl, by decide⟩
theorem witness_EveryStepKeepsTheInvariant : State.reset.Inv Config.params ∧
    Leads (fun t => t.frame ≠ none)
      (stepWith Config.params { keysIn := 0, tickDue := false, debug := false } State.reset) :=
  ⟨⟨by decide, by unfold Memory.fontIntact; decide, fun _ h => nomatch h⟩, _, rfl, by decide⟩

theorem witness_CallPushesAndJumps : ({ State.reset with sp := 15 } : State).sp.val < 16 := by decide
theorem witness_RetPopsAndJumps : ({ State.reset with sp := 1 } : State).sp.val = (0 : Fin 16).val + 1 ∧
    ({ State.reset with sp := 16 } : State).sp.val = (15 : Fin 16).val + 1 := by decide
theorem witness_StackAndKeyFaultsAreLatched : ({ State.reset with sp := 16 } : State).sp = 16 ∧ State.reset.sp = 0 ∧
    ((start [(1, 16)] 0).reg 1).toNat > 15 := by decide
theorem witness_AddRegistersSetsCarry : (14 : RegIdx) ≠ 15 ∧ (13 : RegIdx) ≠ 14 ∧ (13 : RegIdx) ≠ 15 := by decide
theorem witness_ShiftsLoseNoBit : (14 : RegIdx) ≠ 15 ∧
    Leads (fun t => t.reg 14 = 0x7F) (exec (.shrVx 14 0) (start [(14, 0xFF)] 0)) ∧
    Leads (fun t => t.reg 14 = 0xFE) (exec (.shlVx 14 0) (start [(14, 0xFF)] 0)) :=
  ⟨by decide, ⟨_, rfl, by decide⟩, ⟨_, rfl, by decide⟩⟩

theorem witness_BcdStoresThreeDigits : (0x050 ≤ (start [] 0x050).ireg.toNat ∧ (start [] 0x050).ireg.toNat + 2 ≤ 0xFFF) ∧
    (0x050 ≤ (start [] 0xFFD).ireg.toNat ∧ (start [] 0xFFD).ireg.toNat + 2 ≤ 0xFFF) := by decide
theorem witness_BlockStoreWritesV0ToVx : 0x050 ≤ (start [] 0xFF0).ireg.toNat ∧
    (start [] 0xFF0).ireg.toNat + (15 : RegIdx).val ≤ 0xFFF ∧ 0x050 ≤ (start [] 0x050).ireg.toNat ∧
    (start [] 0x050).ireg.toNat + (0 : RegIdx).val ≤ 0xFFF := by decide
theorem witness_BlockLoadReadsV0ToVx : (start [] 0).ireg.toNat + (0 : RegIdx).val ≤ 0xFFF ∧
    (start [] 0xFF0).ireg.toNat + (15 : RegIdx).val ≤ 0xFFF := by decide
/-- Code 3 at 0x1000, the first address that does not exist, for each of the four instructions. -/
theorem witness_MemoryFaultsAreLatched_address :
    (start [] 0xFFE).ireg.toNat + 2 > 0xFFF ∧ (start [] 0xFFF).ireg.toNat + (1 : RegIdx).val > 0xFFF ∧
    (start [] 0x1000).ireg.toNat + (0 : RegIdx).val > 0xFFF ∧
    ((1 : Nibble) ≠ 0 ∧ (start [] 0x1000).ireg.toNat + (1 : Nibble).toNat - 1 > 0xFFF) := by decide
/-- Code 4 at 0x04F, the last font address, for each of the two stores. -/
theorem witness_MemoryFaultsAreLatched_font : (start [] 0x04F).ireg.toNat < 0x050 ∧
    (start [] 0x04F).ireg.toNat + 2 ≤ 0xFFF ∧ (start [] 0x04F).ireg.toNat + (15 : RegIdx).val ≤ 0xFFF := by decide
theorem witness_BlockTransfersRoundTrip :
    Leads (fun t => Leads (fun u => u.reg 1 = 9) (exec (.ldVxMem 1) t)) (exec (.ldMemVx 1) (start [(1, 9)] 0xFFE)) ∧
    Leads (fun t => Leads (fun u => u.readByte 0x051 = 0) (exec (.ldMemVx 1) t)) (exec (.ldVxMem 1) (start [(1, 9)] 0x050)) :=
  ⟨⟨_, rfl, _, rfl, by decide⟩, ⟨_, rfl, _, rfl, by decide⟩⟩
/-- The next instruction is at 0x202: a store that reaches both of its bytes, only the low one, only the high one, and the
last fetch in memory. -/
theorem witness_StoreIsSeenByTheNextFetch :
    (0x050 ≤ (start [] 0x202).ireg.toNat ∧ (start [] 0x202).ireg.toNat + (1 : RegIdx).val ≤ 0xFFF ∧
      (start [] 0x202).pc.toNat + 3 ≤ 0xFFF) ∧
    Leads (fun t => fetch t = some 0x1122) (exec (.ldMemVx 1) (start [(0, 0x11), (1, 0x22)] 0x202)) ∧
    Leads (fun t => fetch t = some 0x0011) (exec (.ldMemVx 0) (start [(0, 0x11)] 0x203)) ∧
    Leads (fun t => fetch t = some 0x1100) (exec (.ldMemVx 0) (start [(0, 0x11)] 0x202)) ∧
    Leads (fun t => fetch t = some 0x0504) (exec (.ldBVx 1) (start [(1, 0xFE)] 0x201)) ∧
    (({ State.reset with pc := 0xFFC, ireg := 0xFFD } : State).pc.toNat + 3 ≤ 0xFFF ∧ (0xFFD : Word).toNat + 2 ≤ 0xFFF) :=
  ⟨by decide, ⟨_, rfl, by decide⟩, ⟨_, rfl, by decide⟩, ⟨_, rfl, by decide⟩, ⟨_, rfl, by decide⟩, by decide⟩

theorem witness_DrawXorsTheSprite : ((0 : Nibble) = 0 ∨ (start [] 0xFFFF).ireg.toNat + (0 : Nibble).toNat - 1 ≤ 0xFFF) ∧
    ((15 : Nibble) = 0 ∨ (start [] 0xFF1).ireg.toNat + (15 : Nibble).toNat - 1 ≤ 0xFFF) := by decide
/-- A clear framebuffer, glyph 0 drawn twice: the second draw collides. -/
theorem witness_DrawIsItsOwnInverse :
    Leads (fun t => Leads (fun u => u.reg 15 = 1) (exec (.drwVxVyN 0 0 5) t)) (exec (.drwVxVyN 0 0 5) State.reset) ∧
    ∀ px py, State.reset.fb.pixel px py = false := ⟨⟨_, rfl, _, rfl, by decide⟩, by
  intro px py; simp [State.reset, State.resetWith, Framebuffer.pixel]⟩
/-- A lit framebuffer, the top row of glyph 0 drawn twice: the second draw does not collide (log 19). -/
theorem witness_SecondDrawCollidesWheneverSpriteIsNonzero :
    Leads (fun t => Leads (fun u => u.reg 15 = 0) (exec (.drwVxVyN 0 0 1) t))
      (exec (.drwVxVyN 0 0 1) { State.reset with fb := Vector.replicate 32 0xFF }) ∧
    State.reset.readByte 0 ≠ 0 := ⟨⟨_, rfl, _, rfl, by decide⟩, by decide⟩

theorem witness_KeySkipsTestTheLatch : ((start [(1, 15)] 0).reg 1).toNat ≤ 15 := by decide
theorem witness_KeyWaitLoadsTheLowestKey : State.reset.keys = 0 ∧ ({ State.reset with keys := 0x8000 } : State).keys ≠ 0 := by
  decide

end Sys2Proof.Tests
end

section
/-! The key latch (10_state.md R28): no instruction and no end of a frame changes it, only the push at the start of a frame
(60_exceptions.md R181). -/

namespace Sys2Proof.Machine

/-! ### The key latch under the shared operations -/

theorem push_keys {s t : State} {w : Word} (h : s.push w = some t) : t.keys = s.keys := by
  obtain ⟨_, hp⟩ | ⟨_, hp⟩ := push_eq s w
  · rw [hp] at h; cases h; rfl
  · rw [hp] at h; cases h

theorem pop_keys {s t : State} {w : Word} (h : s.pop = some (w, t)) : t.keys = s.keys := by
  obtain ⟨_, hp⟩ | ⟨_, hp⟩ := pop_eq s
  · rw [hp] at h; cases h; rfl
  · rw [hp] at h; cases h

@[simp] theorem loadRegs_keys (x : RegIdx) (s : State) : (loadRegs x s).keys = s.keys := by
  rw [loadRegs_eq]

@[simp] theorem storeRegs_keys (x : RegIdx) (s : State) : (storeRegs x s).keys = s.keys := by
  rw [storeRegs_eq]

@[simp] theorem drawEffect_keys (x y : RegIdx) (n : Nibble) (s : State) : (drawEffect x y n s).keys = s.keys := by
  rw [drawEffect_eq]

/-- A checked instruction keeps the key latch if its effect does: a fault keeps it too (R172). -/
theorem checked_keys {c : Option FaultCause} {i : Instr} {s t : State} (h : t.keys = s.keys) :
    (checked c i s t).keys = s.keys := by
  obtain ⟨_, hc⟩ | ⟨f, _, hc⟩ := checked_cases c i s t
  · rw [hc, h]
  · rw [hc, takeFault_keys]

@[simp] theorem timerPhase_keys (d : Bool) (s : State) : (timerPhase d s).keys = s.keys := by
  obtain ⟨_, _, ht⟩ | ⟨_, ht⟩ := timerPhase_cases d s
  · rw [ht, timerTick_keys]
  · rw [ht]

@[simp] theorem endFrame_keys (f : FrameRun) (s : State) : (endFrame f s).keys = s.keys :=
  timerPhase_keys f.tickDue s

/-! ### The key latch under the instructions and the transitions -/

/-- No instruction writes the key latch. Each one that can fault or wait is split along its outcomes; every other one is a
chain of updates of other fields. -/
theorem exec_keys {i : Instr} {s t : State} (h : exec i s = .next t) : t.keys = s.keys := by
  cases i
  case call nnn =>
    cases h
    split
    · exact takeFault_keys ..
    · next hp => rw [setPc_keys, push_keys hp, advance_keys]
  case ret u =>
    cases h
    split
    · exact takeFault_keys ..
    · next hp => rw [setPc_keys, pop_keys hp, advance_keys]
  case skpVx x | sknpVx x =>
    cases h
    split
    · exact takeFault_keys ..
    · exact skipIf_keys ..
  case ldVxK x =>
    cases h
    split
    · exact setPc_keys ..
    · exact setReg_keys ..
  case drwVxVyN x y n => cases h; exact checked_keys (drawEffect_keys x y n s.advance)
  case ldBVx x => cases h; exact checked_keys (storeBcd_keys s.advance x)
  case ldMemVx x => cases h; exact checked_keys (storeRegs_keys x s.advance)
  case ldVxMem x => cases h; exact checked_keys (loadRegs_keys x s.advance)
  all_goals cases h; rfl

/-- A transition either keeps the key latch or is the start of a frame that was admitted. -/
theorem stepWith_keys {P : Config.Params} {q : FrameRequest} {s t : State} (h : stepWith P q s = .next t) :
    t.keys = s.keys ∨ (s.frame = none ∧ s.fault = none ∧ t = beginFrame P q s) := by
  obtain ⟨_, _, rfl⟩ | ⟨hframe, hfault, _, rfl⟩ | ⟨f, _, _, rfl⟩ | ⟨f, w, _, _, _, _, hexec⟩ := stepWith_cases h
  · exact .inl rfl
  · exact .inr ⟨hframe, hfault, rfl⟩
  · exact .inl (endFrame_keys f s)
  · exact .inl ((exec_keys hexec).trans (takeSlot_keys ..))

/-- Settles O10, by cases on what a transition can be: only the start of a frame pushes the keys. -/
theorem keysChangeOnlyAtFrameStart : Obligations.KeysChangeOnlyAtFrameStart := by
  refine ⟨fun P q s k => ?_, fun P q s t h hne => ?_⟩
  · rw [State.keyHeld, beginFrame_keys]
  · obtain hsame | ⟨hframe, hfault, rfl⟩ := stepWith_keys h
    · exact absurd hsame hne
    · exact ⟨hframe, hfault, beginFrame_keys s P q⟩

end Sys2Proof.Machine
end

section
/-! Jumps and skips (41_control_flow.md R100, R103, R104, R107): each is one write of `PC`, so each keeps every other part. -/

namespace Sys2Proof.Machine

/-! ### A write of the program counter -/

theorem Part.same_refl (s : State) (p : Part) : p.same s s := by
  cases p
  case regs | memory => exact fun _ => rfl
  case pixels => exact fun _ _ => rfl
  case stack => exact ⟨rfl, fun _ => rfl⟩
  case sequencer | draws => exact ⟨rfl, rfl⟩
  all_goals exact rfl

/-- A write of `PC` keeps every other part: those are read from fields it does not touch. -/
theorem setPc_keepsAllButPc (s : State) (w : Word) : keepsAllBut [.pc] s (s.setPc w) := by
  intro p hp
  have hsame := Part.same_refl s p
  cases p
  case pc => exact absurd (List.mem_singleton_self _) hp
  all_goals exact hsame

/-- A jump after the advance is one write of `PC`. -/
theorem advance_setPc (s : State) (w : Word) : s.advance.setPc w = s.setPc w := rfl

/-- A skip after the advance is one write of `PC`: two words on if the skip is taken, else one (R103). -/
theorem advance_skipIf (s : State) (c : Prop) [Decidable c] :
    s.advance.skipIf (decide c) = s.setPc (if c then s.pc + 4 else s.pc + 2) := by
  have htwo : s.pc + 2 + 2 = s.pc + 4 := BitVec.add_assoc s.pc 2 2
  simp only [State.skipIf, decide_eq_true_eq, advance_pc, htwo, advance_setPc]

/-! ### Zero extension -/

theorem toNat_zextAddr (nnn : Addr) : (zextAddr nnn).toNat = nnn.toNat :=
  BitVec.toNat_setWidth_of_le (by decide)

theorem toNat_zextByte (b : Byte) : (zextByte b).toNat = b.toNat :=
  BitVec.toNat_setWidth_of_le (by decide)

/-- An address plus a byte is at most 0x10FE, so their 16-bit sum never wraps (R107). -/
theorem toNat_zextAddr_add_zextByte (nnn : Addr) (b : Byte) :
    (zextAddr nnn + zextByte b).toNat = nnn.toNat + b.toNat := by
  have hnnn := nnn.isLt
  have hb := b.isLt
  rw [BitVec.toNat_add, toNat_zextAddr, toNat_zextByte]
  omega

/-! ### The instructions as writes of the program counter -/

theorem exec_jp (nnn : Addr) (s : State) : exec (.jp nnn) s = .next (s.setPc (zextAddr nnn)) :=
  congrArg Host.Outcome.next (advance_setPc s _)

theorem exec_jpV0Nnn (nnn : Addr) (s : State) :
    exec (.jpV0Nnn nnn) s = .next (s.setPc (zextAddr nnn + zextByte (s.reg 0))) :=
  congrArg Host.Outcome.next (advance_setPc s _)

theorem exec_seVxKk (x : RegIdx) (kk : Byte) (s : State) :
    exec (.seVxKk x kk) s = .next (s.setPc (if s.reg x = kk then s.pc + 4 else s.pc + 2)) :=
  congrArg Host.Outcome.next (advance_skipIf s _)

theorem exec_sneVxKk (x : RegIdx) (kk : Byte) (s : State) :
    exec (.sneVxKk x kk) s = .next (s.setPc (if s.reg x ≠ kk then s.pc + 4 else s.pc + 2)) :=
  congrArg Host.Outcome.next (advance_skipIf s _)

/-! ### The statements -/

/-- Settles O27: `JP` is one write of `PC`, with the address zero-extended. -/
theorem jpSetsPc : Obligations.JpSetsPc :=
  fun nnn s => ⟨_, exec_jp nnn s, toNat_zextAddr nnn, setPc_keepsAllButPc s _⟩

/-- Settles O31: both skips are one write of `PC`; bytes are equal exactly when their numbers are. -/
theorem skipsCompareWithImmediate : Obligations.SkipsCompareWithImmediate := by
  refine ⟨fun x kk s => ⟨_, exec_seVxKk x kk s, ?_, setPc_keepsAllButPc s _⟩,
    fun x kk s => ⟨_, exec_sneVxKk x kk s, ?_, setPc_keepsAllButPc s _⟩⟩
  · simp only [setPc_pc, BitVec.toNat_inj]
  · simp only [setPc_pc, BitVec.toNat_inj, ne_eq, ite_not]

/-- Settles O33: `JP V0, nnn` is one write of `PC`, with a sum that does not wrap. -/
theorem indexedJumpAddsV0 : Obligations.IndexedJumpAddsV0 :=
  fun nnn s => ⟨_, exec_jpV0Nnn nnn s, toNat_zextAddr_add_zextByte nnn (s.reg 0), setPc_keepsAllButPc s _⟩

end Sys2Proof.Machine
end

section
/-! Arithmetic and logic (42_arithmetic.md R110, R111, R113 to R117): each is one write of `Vx` after the advance, or a
result to `Vx` and then a flag to `VF`, so each keeps every part but `PC` and the registers. -/

namespace Sys2Proof.Machine

/-! ### A write of the register file after the advance -/

/-- The advance and a new register file keep every other part: those are read from fields the two do not touch. -/
theorem advance_withRegs_keepsAllButPcRegs (s : State) (v : Vector Byte 16) :
    keepsAllBut [.pc, .regs] s { s.advance with v := v } := by
  intro p hp
  have hsame := Part.same_refl s p
  cases p
  case pc | regs => exact absurd (by decide) hp
  all_goals exact hsame

theorem advance_setReg_keepsAllButPcRegs (s : State) (x : RegIdx) (b : Byte) :
    keepsAllBut [.pc, .regs] s (s.advance.setReg x b) :=
  advance_withRegs_keepsAllButPcRegs s _

theorem resultThenFlag_keepsAllButPcRegs (x : RegIdx) (r : Byte) (c : Bool) (s : State) :
    keepsAllBut [.pc, .regs] s (resultThenFlag x r c s) := by
  rw [resultThenFlag_eq]
  exact advance_withRegs_keepsAllButPcRegs s _

theorem reg_setReg_same (s : State) (x : RegIdx) (b : Byte) : (s.setReg x b).reg x = b := by
  rw [reg_setReg, if_pos rfl]

theorem reg_setReg_other {x r : RegIdx} (h : r ≠ x) (s : State) (b : Byte) : (s.setReg x b).reg r = s.reg r := by
  rw [reg_setReg, if_neg h]

/-- An instruction that writes a byte with known bits to `Vx` and nothing else (R113 to R115). -/
theorem advance_setReg_bitwise (x : RegIdx) (s : State) {b : Byte} {f : Nat → Bool} (hbits : ∀ i, b.getLsbD i = f i) :
    ∃ t, (.next (s.advance.setReg x b) : Result) = .next t ∧ t.pc = s.pc + 2 ∧
      (∀ i < 8, (t.reg x).getLsbD i = f i) ∧ (∀ r : RegIdx, r ≠ x → t.reg r = s.reg r) ∧
      keepsAllBut [.pc, .regs] s t := by
  refine ⟨_, rfl, rfl, fun i _ => ?_, fun r hr => reg_setReg_other hr s.advance b,
    advance_setReg_keepsAllButPcRegs s x b⟩
  rw [reg_setReg_same, hbits]

/-! ### A result, then a flag (R122) -/

/-- `VF` holds the flag, also where it was the destination. -/
theorem toNat_resultThenFlag_flag (x : RegIdx) (b : Byte) (c : Prop) [Decidable c] (s : State) :
    ((resultThenFlag x b (decide c) s).reg 15).toNat = if c then 1 else 0 := by
  rw [reg_resultThenFlag, if_pos (show (15 : RegIdx) = vf from rfl)]
  by_cases h : c <;> simp [h]

theorem reg_resultThenFlag_dest {x : RegIdx} (h : x ≠ 15) (b : Byte) (c : Bool) (s : State) :
    (resultThenFlag x b c s).reg x = b := by
  rw [reg_resultThenFlag, if_neg (show x ≠ vf from h), if_pos rfl]

theorem reg_resultThenFlag_other {x r : RegIdx} (hx : r ≠ x) (hf : r ≠ 15) (b : Byte) (c : Bool) (s : State) :
    (resultThenFlag x b c s).reg r = s.reg r := by
  rw [reg_resultThenFlag, if_neg (show r ≠ vf from hf), if_neg hx]

/-! ### Results modulo 256 -/

theorem toNat_sumMod (a b : Byte) : (sumMod a b).toNat = (a.toNat + b.toNat) % 256 := by
  rw [sumMod, BitVec.toNat_ofNat, Nat.mod_mod]

theorem toNat_diffMod (a b : Byte) : ((diffMod a b).toNat : Int) = ((a.toNat : Int) - (b.toNat : Int)) % 256 := by
  rw [diffMod, BitVec.toNat_ofInt]
  omega

/-! ### The statements -/

/-- Settles O34: `LD Vx, kk` is one write of `Vx`. -/
theorem loadImmediateSetsVx : Obligations.LoadImmediateSetsVx :=
  fun x kk s => ⟨s.advance.setReg x kk, rfl, rfl, fun r => reg_setReg s.advance x r kk,
    advance_setReg_keepsAllButPcRegs s x kk⟩

/-- Settles O35: `ADD Vx, kk` is one write of `Vx`, with the sum modulo 256. -/
theorem addImmediateWrapsWithoutFlag : Obligations.AddImmediateWrapsWithoutFlag := by
  refine fun x kk s => ⟨s.advance.setReg x (sumMod (s.reg x) kk), rfl, rfl, fun r => ?_,
    advance_setReg_keepsAllButPcRegs s x _⟩
  rw [reg_setReg, apply_ite BitVec.toNat, toNat_sumMod, reg_advance]

/-- Settles O37: each of the three is one write of `Vx`, with an operation that works bit by bit. -/
theorem bitwiseOperationsWriteNoFlag : Obligations.BitwiseOperationsWriteNoFlag :=
  ⟨fun x _ s => advance_setReg_bitwise x s fun _ => BitVec.getLsbD_or,
    fun x _ s => advance_setReg_bitwise x s fun _ => BitVec.getLsbD_and,
    fun x _ s => advance_setReg_bitwise x s fun _ => BitVec.getLsbD_xor⟩

/-- Settles O38: `ADD Vx, Vy` writes the sum modulo 256 and then the carry. -/
theorem addRegistersSetsCarry : Obligations.AddRegistersSetsCarry := by
  refine fun x y s => ⟨resultThenFlag x (sumMod (s.reg x) (s.reg y)) (carryOut (s.reg x) (s.reg y)) s, rfl, rfl,
    toNat_resultThenFlag_flag x _ _ s, fun hx => ?_, fun r hr hf => reg_resultThenFlag_other hr hf _ _ s,
    resultThenFlag_keepsAllButPcRegs x _ _ s⟩
  rw [reg_resultThenFlag_dest hx, toNat_sumMod]

/-- Settles O39: `SUB Vx, Vy` writes the difference modulo 256 and then the complement of the borrow. -/
theorem subtractSetsNotBorrow : Obligations.SubtractSetsNotBorrow := by
  refine fun x y s => ⟨resultThenFlag x (diffMod (s.reg x) (s.reg y)) (noBorrow (s.reg x) (s.reg y)) s, rfl, rfl,
    toNat_resultThenFlag_flag x _ _ s, fun hx => ?_, fun r hr hf => reg_resultThenFlag_other hr hf _ _ s,
    resultThenFlag_keepsAllButPcRegs x _ _ s⟩
  rw [reg_resultThenFlag_dest hx, toNat_diffMod]

end Sys2Proof.Machine
end

section
/-! Loads of the index register (44_memory_bcd.md R131, R133): each is one write of `I` after the advance, so each keeps
every part but `PC` and `I`. -/

namespace Sys2Proof.Machine

/-- The advance and a write of `I` keep every other part: those are read from fields the two do not touch. -/
theorem advance_setI_keepsAllButPcIndex (s : State) (w : Word) : keepsAllBut [.pc, .index] s (s.advance.setI w) := by
  intro p hp
  have hsame := Part.same_refl s p
  cases p
  case pc | index => exact absurd (by decide) hp
  all_goals exact hsame

/-- Masking with 0xF keeps the low nibble, the remainder modulo 16. -/
theorem toNat_and_lowNibble (b : Byte) : (b &&& 0xF).toNat = b.toNat % 16 := by
  rw [BitVec.toNat_and]
  exact Nat.and_two_pow_sub_one_eq_mod b.toNat 4

/-- The last glyph is at 75, so the glyph's address fits a word (R133). -/
theorem toNat_glyphAddr (b : Byte) : (BitVec.ofNat 16 (5 * (b &&& 0xF).toNat)).toNat = 5 * (b.toNat % 16) := by
  rw [BitVec.toNat_ofNat, toNat_and_lowNibble]
  omega

/-- Settles O44: both loads are one write of `I`, with the zero-extended address or the glyph's address. -/
theorem indexLoads : Obligations.IndexLoads :=
  ⟨fun nnn s => ⟨s.advance.setI (zextAddr nnn), rfl, rfl, toNat_zextAddr nnn, advance_setI_keepsAllButPcIndex s _⟩,
    fun x s => ⟨s.advance.setI (BitVec.ofNat 16 (5 * (s.reg x &&& 0xF).toNat)), rfl, rfl, toNat_glyphAddr (s.reg x),
      advance_setI_keepsAllButPcIndex s _⟩⟩

end Sys2Proof.Machine
end

section
/-! The decoder and the encoder (30_encoding.md R72 to R79): each is the other's inverse, and the mask of a row settles
every field the decoder examines on the way to it. -/

namespace Sys2Proof

/-! ### The families the decoder looks into -/

section
variable {w : Word}

theorem decode_family0 (hop : opField w = 0x0) : decode w = decodeFamily0 w := by simp [decode, hop]

theorem decode_family8 (hop : opField w = 0x8) : decode w = decodeFamily8 w := by simp [decode, hop]

theorem decode_familyE (hop : opField w = 0xE) : decode w = decodeFamilyE w := by simp [decode, hop]

theorem decode_familyF (hop : opField w = 0xF) : decode w = decodeFamilyF w := by simp [decode, hop]

/-- The unknown space in terms of the fields the decoder examines (R79). -/
theorem unknownSpace_iff : unknownSpace w = true ↔
    (opField w = 0x0 ∧ kkField w ≠ 0xE0 ∧ kkField w ≠ 0xEE) ∨
    (opField w = 0x8 ∧ nField w ∈ [0x8, 0x9, 0xA, 0xB, 0xC, 0xD, 0xF]) ∨
    (opField w = 0xE ∧ kkField w ≠ 0x9E ∧ kkField w ≠ 0xA1) ∨
    (opField w = 0xF ∧ kkField w ∉ [0x07, 0x0A, 0x15, 0x18, 0x1E, 0x29, 0x33, 0x55, 0x65]) := by
  simp only [unknownSpace, ← BitVec.toNat_inj, toNat_opField, toNat_kkField, toNat_nField, List.mem_cons, List.not_mem_nil,
    ne_eq, List.contains_eq_mem, or_false]
  split_ifs <;> simp <;> omega

/-- A word of the unknown space reaches the last arm of its family. -/
theorem decode_of_unknownSpace (h : unknownSpace w = true) : decode w = .unknown w := by
  obtain ⟨hop, hE0, hEE⟩ | ⟨hop, hn⟩ | ⟨hop, h9E, hA1⟩ | ⟨hop, hkk⟩ := unknownSpace_iff.1 h
  · rw [decode_family0 hop, decodeFamily0]
    split
    · next hkk => exact absurd hkk hE0
    · next hkk => exact absurd hkk hEE
    · rfl
  · rw [decode_family8 hop]
    simp only [List.mem_cons, List.not_mem_nil, or_false] at hn
    obtain hn | hn | hn | hn | hn | hn | hn := hn <;> simp [decodeFamily8, hn]
  · rw [decode_familyE hop, decodeFamilyE]
    split
    · next hkk => exact absurd hkk h9E
    · next hkk => exact absurd hkk hA1
    · rfl
  · rw [decode_familyF hop, decodeFamilyF]
    split
    case h_10 => rfl
    all_goals next hkk' => exact absurd (by simp [hkk']) hkk

/-- Decoding the word of a well-formed instruction: every field of the word is the operand it was assembled from. -/
theorem decode_encode {i : Instr} (h : i.wellFormed = true) : decode (encode i) = i := by
  cases i
  case unknown w => exact decode_of_unknownSpace h
  all_goals simp [encode, decode, decodeFamily0, decodeFamily8, decodeFamilyE, decodeFamilyF, xField, yField]

/-! ### From words to instructions -/

variable {op : Nibble}

theorem wordXK_of_fields {kk : Byte} (hop : opField w = op) (hkk : kkField w = kk) : wordXK op (xNibble w) kk = w := by
  rw [← hop, ← hkk, wordXK_fields]

theorem wordXYN_of_fields {n : Nibble} (hop : opField w = op) (hn : nField w = n) :
    wordXYN op (xNibble w) (yNibble w) n = w := by
  rw [← hop, ← hn, wordXYN_fields]

theorem wordA_of_fields (hop : opField w = op) : wordA op (nnnField w) = w := by
  rw [← hop, wordA_fields]

/-- That `i` is an instruction `w` stands for: well formed, and with `w` as its word. -/
def StandsFor (w : Word) (i : Instr) : Prop := i.wellFormed = true ∧ encode i = w

theorem standsFor_unknown (h : unknownSpace w = true) : StandsFor w (.unknown w) := ⟨h, rfl⟩

theorem standsFor_decodeFamily0 (hop : opField w = 0x0) : StandsFor w (decodeFamily0 w) := by
  unfold decodeFamily0
  split
  · next hkk => exact ⟨rfl, wordXK_of_fields hop hkk⟩
  · next hkk => exact ⟨rfl, wordXK_of_fields hop hkk⟩
  · next hE0 hEE => exact standsFor_unknown (unknownSpace_iff.2 (.inl ⟨hop, hE0, hEE⟩))

theorem standsFor_decodeFamilyE (hop : opField w = 0xE) : StandsFor w (decodeFamilyE w) := by
  unfold decodeFamilyE
  split
  · next hkk => exact ⟨rfl, wordXK_of_fields hop hkk⟩
  · next hkk => exact ⟨rfl, wordXK_of_fields hop hkk⟩
  · next h9E hA1 => exact standsFor_unknown (unknownSpace_iff.2 (.inr (.inr (.inl ⟨hop, h9E, hA1⟩))))

theorem standsFor_decodeFamily8 (hop : opField w = 0x8) : StandsFor w (decodeFamily8 w) := by
  unfold decodeFamily8
  split
  case h_10 =>
    refine standsFor_unknown (unknownSpace_iff.2 (.inr (.inl ⟨hop, ?_⟩)))
    generalize nField w = n at *
    revert n
    decide
  all_goals next hn => exact ⟨rfl, wordXYN_of_fields hop hn⟩

theorem standsFor_decodeFamilyF (hop : opField w = 0xF) : StandsFor w (decodeFamilyF w) := by
  unfold decodeFamilyF
  split
  case h_10 =>
    refine standsFor_unknown (unknownSpace_iff.2 (.inr (.inr (.inr ⟨hop, ?_⟩))))
    simp only [List.mem_cons, List.not_mem_nil, or_false, not_or]
    and_intros <;> assumption
  all_goals next hkk => exact ⟨rfl, wordXK_of_fields hop hkk⟩

/-- Every word stands for what it decodes to: by the arms of the decoder in their order (`h_1` is top nibble 0), of which the
last is never reached. -/
theorem standsFor_decode (w : Word) : StandsFor w (decode w) := by
  unfold decode
  split
  case h_1 hop => exact standsFor_decodeFamily0 hop
  case h_9 hop => exact standsFor_decodeFamily8 hop
  case h_15 hop => exact standsFor_decodeFamilyE hop
  case h_16 hop => exact standsFor_decodeFamilyF hop
  case h_2 hop | h_3 hop | h_11 hop | h_12 hop => exact ⟨rfl, wordA_of_fields hop⟩
  case h_6 hop | h_10 hop | h_14 hop => exact ⟨rfl, wordXYN_of_fields hop rfl⟩
  case h_17 =>
    exfalso
    generalize opField w = op at *
    revert op
    decide
  all_goals next hop => exact ⟨rfl, wordXK_of_fields hop rfl⟩

end

/-! ### Rows of the opcode map (R75) -/

section
open Laws.RowPattern
variable {w m : Word}

theorem opField_eq_of_mask_F000 (h : w &&& 0xF000 = m) : opField w = opField m := by
  rw [← h, mask_F000, opField_wordA]

theorem fields_eq_of_mask_F0FF (h : w &&& 0xF0FF = m) : opField w = opField m ∧ kkField w = kkField m := by
  rw [← h, mask_F0FF, opField_wordXK, kkField_wordXK]
  exact ⟨rfl, rfl⟩

theorem fields_eq_of_mask_F00F (h : w &&& 0xF00F = m) : opField w = opField m ∧ nField w = nField m := by
  rw [← h, mask_F00F, opField_wordXYN, nField_wordXYN]
  exact ⟨rfl, rfl⟩

end

/-- That two instructions are of the same row of the opcode map. -/
def SameRow (i j : Instr) : Prop := rowMatch i = rowMatch j ∧ rowMask i = rowMask j

/-- The masked bits of a word settle every field the decoder examines on the way to that row. -/
theorem sameRow_decode {i : Instr} {w : Word} (hi : ∀ v, i ≠ .unknown v) (h : w &&& rowMask i = rowMatch i) :
    SameRow (decode w) i := by
  cases i
  case unknown v => exact absurd rfl (hi v)
  case cls | ret | skpVx | sknpVx | ldVxDt | ldVxK | ldDtVx | ldStVx | addIVx | ldFVx | ldBVx | ldMemVx | ldVxMem =>
    obtain ⟨hop, hkk⟩ := fields_eq_of_mask_F0FF h
    simp only [decode, decodeFamily0, decodeFamilyE, decodeFamilyF, hop, hkk]
    simp [SameRow, rowMatch, rowMask, opField, kkField]
  case ldVxVy | orVxVy | andVxVy | xorVxVy | addVxVy | subVxVy | shrVx | subnVxVy | shlVx =>
    obtain ⟨hop, hn⟩ := fields_eq_of_mask_F00F h
    simp only [decode, decodeFamily8, hop, hn]
    simp [SameRow, rowMatch, rowMask, opField, nField]
  all_goals
    have hop := opField_eq_of_mask_F000 h
    simp only [decode, hop]
    simp [SameRow, rowMatch, rowMask, opField]

/-! ### The statements -/

/-- Settles O5: each constructor's word has the operands as its fields, and a word of the unknown space decodes to
itself. -/
theorem decodeOfEncode : Obligations.DecodeOfEncode := fun _ h => decode_encode h

/-- Settles O6, by the arms of the decoder: a word is assembled from its fields. -/
theorem encodeOfDecode : Obligations.EncodeOfDecode := standsFor_decode

/-- Settles O7: what decodes to `unknown v` is well formed and has the word `v`, so it lies in the unknown space. -/
theorem unknownSpaceIsExact : Obligations.UnknownSpaceIsExact := by
  refine fun w v => ⟨fun h => ?_, fun ⟨hv, hw⟩ => (decode_of_unknownSpace hw).trans (congrArg _ hv.symm)⟩
  have hw := standsFor_decode w
  rw [h] at hw
  obtain ⟨hwf, rfl⟩ := hw
  exact ⟨rfl, hwf⟩

/-- Settles O8, by the three masks of the opcode map. -/
theorem matchingWordDecodesToItsRow : Obligations.MatchingWordDecodesToItsRow := fun _ _ hi h => sameRow_decode hi h

/-- Settles O4, by running the decoder on the words. -/
theorem writtenWordsDecode : Obligations.WrittenWordsDecode := by
  unfold Obligations.WrittenWordsDecode
  decide

end Sys2Proof
end

section
/-! What the operations of the state leave alone, field by field: each changes one part of the state or a few. -/

namespace Sys2Proof.Machine

/-! ### Changing only some parts -/

/-- That the fields of a part are the same in two states. It says more than `Part.same`, which reads a part through the
machine's own reads. -/
def Part.fixed (s t : State) : Part → Prop
  | .regs => t.v = s.v
  | .index => t.ireg = s.ireg
  | .pc => t.pc = s.pc
  | .stack => t.sp = s.sp ∧ t.stack = s.stack
  | .delay => t.dt = s.dt
  | .sound => t.st = s.st
  | .keys => t.keys = s.keys
  | .pixels => t.fb = s.fb
  | .memory => t.mem = s.mem
  | .latch => t.fault = s.fault
  | .soundPrev => t.soundPrev = s.soundPrev
  | .sequencer => t.frame = s.frame ∧ t.frames = s.frames
  | .draws => t.draws = s.draws ∧ t.rndIn = s.rndIn
  | .rom => t.rom = s.rom
  | .events => t.out = s.out

/-- The fields of every part but the listed ones are the same in `t` as in `s`. -/
def changesOnly (ps : List Part) (s t : State) : Prop := ∀ p : Part, p ∉ ps → p.fixed s t

theorem Part.fixed_refl (s : State) (p : Part) : p.fixed s s := by
  cases p
  case stack | sequencer | draws => exact ⟨rfl, rfl⟩
  all_goals exact rfl

theorem Part.fixed.same {s t : State} {p : Part} (h : p.fixed s t) : p.same s t := by
  cases p
  case regs => exact fun r => reg_congr h r
  case memory => exact fun a => congrArg (Memory.read · a) h
  case pixels => exact fun px py => congrArg (Framebuffer.pixel · px py) h
  case stack => exact ⟨h.1, fun j => by rw [h.2]⟩
  all_goals exact h

theorem Part.fixed.trans {s t u : State} {p : Part} (hst : p.fixed s t) (htu : p.fixed t u) : p.fixed s u := by
  cases p
  case stack | sequencer | draws => exact ⟨htu.1.trans hst.1, htu.2.trans hst.2⟩
  all_goals exact Eq.trans htu hst

theorem changesOnly.keepsAllBut {ps : List Part} {s t : State} (h : changesOnly ps s t) : keepsAllBut ps s t :=
  fun p hp => (h p hp).same

theorem changesOnly_refl (s : State) : changesOnly [] s s := fun p _ => Part.fixed_refl s p

theorem changesOnly.trans {ps qs : List Part} {s t u : State} (hst : changesOnly ps s t) (htu : changesOnly qs t u) :
    changesOnly (ps ++ qs) s u := by
  intro p hp
  rw [List.mem_append, not_or] at hp
  exact (hst p hp.1).trans (htu p hp.2)

theorem changesOnly.mono {ps qs : List Part} {s t : State} (h : changesOnly ps s t) (hsub : ps ⊆ qs) :
    changesOnly qs s t :=
  fun p hp => h p fun hmem => hp (hsub hmem)

/-- `s` with one part taken from `t`. -/
def State.withPart (p : Part) (s t : State) : State :=
  match p with
  | .regs => { s with v := t.v }
  | .index => { s with ireg := t.ireg }
  | .pc => { s with pc := t.pc }
  | .stack => { s with sp := t.sp, stack := t.stack }
  | .delay => { s with dt := t.dt }
  | .sound => { s with st := t.st }
  | .keys => { s with keys := t.keys }
  | .pixels => { s with fb := t.fb }
  | .memory => { s with mem := t.mem }
  | .latch => { s with fault := t.fault }
  | .soundPrev => { s with soundPrev := t.soundPrev }
  | .sequencer => { s with frame := t.frame, frames := t.frames }
  | .draws => { s with draws := t.draws, rndIn := t.rndIn }
  | .rom => { s with rom := t.rom }
  | .events => { s with out := t.out }

theorem changesOnly_withPart (p : Part) (s t : State) : changesOnly [p] s (s.withPart p t) := by
  intro p' hp'
  have hne : p' ≠ p := fun e => hp' (List.mem_singleton.2 e)
  have hfixed := Part.fixed_refl s p'
  cases p <;> cases p'
  case regs.regs | index.index | pc.pc | stack.stack | delay.delay | sound.sound | keys.keys | pixels.pixels
    | memory.memory | latch.latch | soundPrev.soundPrev | sequencer.sequencer | draws.draws | rom.rom | events.events =>
    exact absurd rfl hne
  all_goals exact hfixed

/-- A state that is `s` but for one part. -/
theorem changesOnly_of_eq {p : Part} {s t : State} (h : t = s.withPart p t) : changesOnly [p] s t :=
  h ▸ changesOnly_withPart p s t

/-! ### The operations -/

section
variable (s : State)

theorem setReg_changes (x : RegIdx) (b : Byte) : changesOnly [.regs] s (s.setReg x b) := changesOnly_of_eq rfl

theorem setI_changes (w : Word) : changesOnly [.index] s (s.setI w) := changesOnly_of_eq rfl

theorem setDt_changes (b : Byte) : changesOnly [.delay] s (s.setDt b) := changesOnly_of_eq rfl

theorem setSt_changes (b : Byte) : changesOnly [.sound] s (s.setSt b) := changesOnly_of_eq rfl

theorem setFb_changes (f : Framebuffer) : changesOnly [.pixels] s (s.setFb f) := changesOnly_of_eq rfl

theorem setPc_changes (w : Word) : changesOnly [.pc] s (s.setPc w) := changesOnly_of_eq rfl

theorem advance_changes : changesOnly [.pc] s s.advance := changesOnly_of_eq rfl

theorem emit_changes (e : Event) : changesOnly [.events] s (s.emit e) := changesOnly_of_eq rfl

theorem consumeDraw_changes : changesOnly [.draws] s s.consumeDraw := changesOnly_of_eq rfl

theorem storeBcd_changes (x : RegIdx) : changesOnly [.memory] s (storeBcd x s) := changesOnly_of_eq rfl

theorem storeRegs_changes (x : RegIdx) : changesOnly [.memory] s (storeRegs x s) :=
  changesOnly_of_eq (storeRegs_eq x s)

theorem loadRegs_changes (x : RegIdx) : changesOnly [.regs] s (loadRegs x s) := changesOnly_of_eq (loadRegs_eq x s)

theorem drawEffect_changes (x y : RegIdx) (n : Nibble) : changesOnly [.regs, .pixels] s (drawEffect x y n s) :=
  (changesOnly_withPart .regs s (drawEffect x y n s)).trans (changesOnly_withPart .pixels _ (drawEffect x y n s))

theorem takeFault_changes (c : FaultCause) (i : Instr) : changesOnly [.pc, .latch] s (takeFault c i s) :=
  (advance_changes s).trans (changesOnly_withPart .latch _ (takeFault c i s))

/-- A jump or a skip after the advance. -/
theorem advance_setPc_changes (w : Word) : changesOnly [.pc] s (s.advance.setPc w) := changesOnly_of_eq rfl

/-- A write of a register after the advance. -/
theorem advance_setReg_changes (x : RegIdx) (b : Byte) : changesOnly [.pc, .regs] s (s.advance.setReg x b) :=
  (advance_changes s).trans (setReg_changes _ x b)

theorem resultThenFlag_changes (x : RegIdx) (r : Byte) (c : Bool) : changesOnly [.pc, .regs] s (resultThenFlag x r c s) :=
  (advance_changes s).trans (changesOnly_of_eq rfl)

theorem flagThenShift_changes (x : RegIdx) (c : Bool) (f : Byte → Byte) :
    changesOnly [.pc, .regs] s (flagThenShift x c f s) :=
  (advance_changes s).trans (changesOnly_of_eq rfl)

theorem takeSlot_changes (f : FrameRun) (i : Instr) : changesOnly [.sequencer, .events] s (takeSlot f i s) :=
  (changesOnly_withPart .sequencer s (takeSlot f i s)).trans (changesOnly_withPart .events _ (takeSlot f i s))

theorem beginFrame_changes (P : Config.Params) (q : FrameRequest) :
    changesOnly [.keys, .sequencer, .draws] s (beginFrame P q s) :=
  ((changesOnly_withPart .keys s (beginFrame P q s)).trans (changesOnly_withPart .sequencer _ (beginFrame P q s))).trans
    (changesOnly_withPart .draws _ (beginFrame P q s))

theorem timerTick_changes : changesOnly [.delay, .sound, .soundPrev, .events] s (timerTick s) :=
  (((changesOnly_withPart .delay s (timerTick s)).trans (changesOnly_withPart .sound _ (timerTick s))).trans
    (changesOnly_withPart .soundPrev _ (timerTick s))).trans (changesOnly_withPart .events _ (timerTick s))

theorem timerPhase_changes (d : Bool) : changesOnly [.delay, .sound, .soundPrev, .events] s (timerPhase d s) := by
  obtain ⟨_, _, h⟩ | ⟨_, h⟩ := timerPhase_cases d s
  · rw [h]
    exact timerTick_changes s
  · rw [h]
    exact (changesOnly_refl s).mono (List.nil_subset _)

theorem endFrame_changes (f : FrameRun) :
    changesOnly [.delay, .sound, .soundPrev, .events, .sequencer] s (endFrame f s) :=
  (timerPhase_changes s f.tickDue).trans (changesOnly_withPart .sequencer _ (endFrame f s))

/-- A write of `PC` and of the stack. -/
theorem withPcStack_changes (w : Word) (sp : Fin 17) (stack : Vector Word 16) :
    changesOnly [.pc, .stack] s { s with pc := w, sp := sp, stack := stack } :=
  (changesOnly_withPart .pc s { s with pc := w }).trans
    (changesOnly_withPart .stack _ { s with sp := sp, stack := stack })

end

end Sys2Proof.Machine
end

section
/-! The outcomes of the instructions that branch: one equation for each (41_control_flow.md R101, R102, 46_input.md R150
to R152). -/

namespace Sys2Proof.Machine

variable {s : State}

theorem exec_call_of_room (h : s.sp.val < 16) (nnn : Addr) :
    exec (.call nnn) s = .next { s with
      pc := zextAddr nnn, stack := s.stack.set s.sp.val (s.pc + 2), sp := ⟨s.sp.val + 1, by omega⟩ } := by
  have hpush : s.advance.push s.advance.pc = some { s.advance with
      stack := s.stack.set s.sp.val (s.pc + 2), sp := ⟨s.sp.val + 1, by omega⟩ } := dif_pos h
  rw [exec, execCall, hpush]
  rfl

theorem exec_call_of_full (h : s.sp = 16) (nnn : Addr) :
    exec (.call nnn) s = .next (takeFault .stackOverflow (.call nnn) s) := by
  have hpush : s.advance.push s.advance.pc = none := dif_neg (by rw [advance_sp, h]; decide)
  rw [exec, execCall, hpush]

theorem exec_ret_of_pos (h : 0 < s.sp.val) (u : Nibble) :
    exec (.ret u) s = .next { s with pc := s.stack[s.sp.val - 1], sp := ⟨s.sp.val - 1, by omega⟩ } := by
  have hpop : s.advance.pop = some (s.stack[s.sp.val - 1], { s.advance with sp := ⟨s.sp.val - 1, by omega⟩ }) :=
    dif_pos h
  rw [exec, execRet, hpop]
  rfl

theorem exec_ret_of_empty (h : s.sp = 0) (u : Nibble) :
    exec (.ret u) s = .next (takeFault .stackUnderflow (.ret u) s) := by
  have hpop : s.advance.pop = none := dif_neg (by rw [advance_sp, h]; decide)
  rw [exec, execRet, hpop]

variable {x : RegIdx} {k : KeyIdx}

theorem exec_skpVx_of_key (h : keyOperand s x = some k) :
    exec (.skpVx x) s = .next (s.setPc (if s.keyHeld k = true then s.pc + 4 else s.pc + 2)) := by
  rw [exec, execSkpVx, h, ← advance_skipIf, Bool.decide_eq_true]

theorem exec_sknpVx_of_key (h : keyOperand s x = some k) :
    exec (.sknpVx x) s = .next (s.setPc (if s.keyHeld k = true then s.pc + 2 else s.pc + 4)) := by
  rw [exec, execSknpVx, h, ← ite_not, ← advance_skipIf, decide_not, Bool.decide_eq_true]

theorem exec_skpVx_of_none (h : keyOperand s x = none) :
    exec (.skpVx x) s = .next (takeFault .keyIndexFault (.skpVx x) s) := by
  rw [exec, execSkpVx, h]

theorem exec_sknpVx_of_none (h : keyOperand s x = none) :
    exec (.sknpVx x) s = .next (takeFault .keyIndexFault (.sknpVx x) s) := by
  rw [exec, execSknpVx, h]

/-- With no key held the advance is undone, so the state is as before. -/
theorem exec_ldVxK_of_none (h : s.lowestKey = none) : exec (.ldVxK x) s = .next s := by
  have hpc : s.advance.pc - 2 = s.pc := BitVec.add_sub_cancel s.pc 2
  rw [exec, execLdVxK, h, hpc]
  rfl

theorem exec_ldVxK_of_some (h : s.lowestKey = some k) :
    exec (.ldVxK x) s = .next (s.advance.setReg x (BitVec.ofNat 8 k.val)) := by
  rw [exec, execLdVxK, h]

end Sys2Proof.Machine
end

section
/-! What every instruction leaves alone (40_step_cycle.md R92, R94): it raises, or changes only the parts its rule names. -/

namespace Sys2Proof.Machine

/-! ### Raising or completing -/

/-- That an instruction has raised: the fault entry of R172 is all it did. -/
def Raises (i : Instr) (s t : State) : Prop := canRaise i = true ∧ ∃ c, t = takeFault c i s

/-- The parts an instruction that completes may change. -/
def completedParts (i : Instr) : List Part := (mayChange i).erase .latch

theorem checked_raises_or {c : Option FaultCause} {i : Instr} {s t : State} (hi : canRaise i = true)
    (h : changesOnly (completedParts i) s t) :
    Raises i s (checked c i s t) ∨ changesOnly (completedParts i) s (checked c i s t) := by
  obtain ⟨_, hc⟩ | ⟨f, _, hc⟩ := checked_cases c i s t
  · rw [hc]
    exact .inr h
  · exact .inl ⟨hi, f, hc⟩

/-- Everything an instruction can do to the parts of the state. -/
theorem exec_raises_or {i : Instr} {s t : State} (h : exec i s = .next t) :
    Raises i s t ∨ changesOnly (completedParts i) s t := by
  cases i
  case call nnn =>
    obtain ⟨hsp, _⟩ | ⟨hsp, _⟩ := push_eq s s.pc
    · cases (exec_call_of_room hsp nnn).symm.trans h
      exact .inr (withPcStack_changes s _ _ _)
    · cases (exec_call_of_full hsp nnn).symm.trans h
      exact .inl ⟨rfl, _, rfl⟩
  case ret u =>
    obtain ⟨hsp, _⟩ | ⟨hsp, _⟩ := pop_eq s
    · cases (exec_ret_of_pos hsp u).symm.trans h
      exact .inr (withPcStack_changes s _ _ _)
    · cases (exec_ret_of_empty hsp u).symm.trans h
      exact .inl ⟨rfl, _, rfl⟩
  all_goals cases h
  case skpVx x | sknpVx x =>
    split
    · exact .inl ⟨rfl, _, rfl⟩
    · exact .inr (advance_setPc_changes s _)
  case ldBVx x => exact checked_raises_or rfl ((advance_changes s).trans (storeBcd_changes _ x))
  case ldMemVx x => exact checked_raises_or rfl ((advance_changes s).trans (storeRegs_changes _ x))
  case ldVxMem x => exact checked_raises_or rfl ((advance_changes s).trans (loadRegs_changes _ x))
  case drwVxVyN x y n => exact checked_raises_or rfl ((advance_changes s).trans (drawEffect_changes _ x y n))
  all_goals refine .inr ?_
  case ldVxK x =>
    split
    · exact .mono (qs := [.pc, .regs]) (advance_setPc_changes s _) (by decide)
    · exact advance_setReg_changes s x _
  case jp | jpV0Nnn | seVxKk | sneVxKk | seVxVy | sneVxVy => exact advance_setPc_changes s _
  case ldVxKk | addVxKk | ldVxVy | orVxVy | andVxVy | xorVxVy | ldVxDt => exact advance_setReg_changes s _ _
  case addVxVy | subVxVy | subnVxVy => exact resultThenFlag_changes s _ _ _
  case shrVx | shlVx => exact flagThenShift_changes s _ _ _
  case rndVxKk x kk =>
    have hchanges := ((advance_changes s).trans (consumeDraw_changes _)).trans (setReg_changes _ x (s.rndByte &&& kk))
    exact hchanges.mono (qs := [.pc, .regs, .draws]) (by decide)
  case ldINnn | addIVx | ldFVx => exact (advance_changes s).trans (setI_changes _ _)
  case ldDtVx => exact (advance_changes s).trans (setDt_changes _ _)
  case ldStVx => exact (advance_changes s).trans (setSt_changes _ _)
  case cls => exact (advance_changes s).trans (setFb_changes _ _)
  case unknown => exact (advance_changes s).trans (emit_changes _ _)

/-! ### The parts a rule names -/

theorem pc_mem_mayChange (i : Instr) : .pc ∈ mayChange i := by cases i <;> simp [mayChange]

theorem latch_mem_mayChange {i : Instr} : .latch ∈ mayChange i ↔ canRaise i = true := by
  cases i <;> simp [mayChange, canRaise]

theorem latch_not_mem_completedParts (i : Instr) : .latch ∉ completedParts i := by
  cases i <;> simp [completedParts, mayChange]

theorem delay_mem_mayChange {i : Instr} : .delay ∈ mayChange i ↔ ∃ x, i = .ldDtVx x := by
  cases i <;> simp [mayChange]

theorem sound_mem_mayChange {i : Instr} : .sound ∈ mayChange i ↔ ∃ x, i = .ldStVx x := by
  cases i <;> simp [mayChange]

theorem memory_mem_mayChange {i : Instr} : .memory ∈ mayChange i ↔ (∃ x, i = .ldBVx x) ∨ ∃ x, i = .ldMemVx x := by
  cases i <;> simp [mayChange]

theorem sequencer_not_mem_mayChange (i : Instr) : .sequencer ∉ mayChange i := by cases i <;> simp [mayChange]

/-- An instruction changes only the parts its rule names, whether it raises or completes. -/
theorem exec_changes {i : Instr} {s t : State} (h : exec i s = .next t) : changesOnly (mayChange i) s t := by
  obtain ⟨hraise, c, rfl⟩ | hcompleted := exec_raises_or h
  · refine (takeFault_changes s c i).mono ?_
    rw [List.cons_subset, List.cons_subset]
    exact ⟨pc_mem_mayChange i, latch_mem_mayChange.2 hraise, List.nil_subset _⟩
  · exact hcompleted.mono List.erase_subset

theorem exec_frame {i : Instr} {s t : State} (h : exec i s = .next t) : t.frame = s.frame :=
  (exec_changes h .sequencer (sequencer_not_mem_mayChange i)).1

/-- An instruction that has not raised leaves the latch as it was. -/
theorem exec_raises_or_fault {i : Instr} {s t : State} (h : exec i s = .next t) : Raises i s t ∨ t.fault = s.fault :=
  (exec_raises_or h).imp_right fun hcompleted => hcompleted .latch (latch_not_mem_completedParts i)

/-! ### Events -/

/-- `s` with another list of events emitted before. -/
def State.withOut (s : State) (es : List Event) : State := { s with out := es }

theorem storeRegs_withOut (x : RegIdx) (s : State) (es : List Event) :
    storeRegs x (s.withOut es) = (storeRegs x s).withOut es :=
  List.foldl_hom (State.withOut · es) fun _ _ => rfl

theorem loadRegs_withOut (x : RegIdx) (s : State) (es : List Event) :
    loadRegs x (s.withOut es) = (loadRegs x s).withOut es :=
  List.foldl_hom (State.withOut · es) fun _ _ => rfl

theorem checked_withOut {c : Option FaultCause} {i : Instr} {s t t' : State} {es : List Event} (h : t' = t.withOut es) :
    checked c i (s.withOut es) t' = (checked c i s t).withOut es := by
  cases c
  · exact h
  · rfl

/-- An instruction does the same whatever was emitted before, but for the events: each branch is decided, and each effect
made, by other fields. -/
theorem exec_withOut {i : Instr} {s t : State} (h : exec i s = .next t) (es : List Event) :
    ∃ es', exec i (s.withOut es) = .next (t.withOut es') := by
  cases i
  case call nnn =>
    obtain ⟨hsp, _⟩ | ⟨hsp, _⟩ := push_eq s s.pc
    · cases (exec_call_of_room hsp nnn).symm.trans h
      exact ⟨es, exec_call_of_room (s := s.withOut es) hsp nnn⟩
    · cases (exec_call_of_full hsp nnn).symm.trans h
      exact ⟨es, exec_call_of_full (s := s.withOut es) hsp nnn⟩
  case ret u =>
    obtain ⟨hsp, _⟩ | ⟨hsp, _⟩ := pop_eq s
    · cases (exec_ret_of_pos hsp u).symm.trans h
      exact ⟨es, exec_ret_of_pos (s := s.withOut es) hsp u⟩
    · cases (exec_ret_of_empty hsp u).symm.trans h
      exact ⟨es, exec_ret_of_empty (s := s.withOut es) hsp u⟩
  case skpVx x =>
    cases hk : keyOperand s x
    · cases (exec_skpVx_of_none hk).symm.trans h
      exact ⟨es, exec_skpVx_of_none (s := s.withOut es) hk⟩
    · cases (exec_skpVx_of_key hk).symm.trans h
      exact ⟨es, exec_skpVx_of_key (s := s.withOut es) hk⟩
  case sknpVx x =>
    cases hk : keyOperand s x
    · cases (exec_sknpVx_of_none hk).symm.trans h
      exact ⟨es, exec_sknpVx_of_none (s := s.withOut es) hk⟩
    · cases (exec_sknpVx_of_key hk).symm.trans h
      exact ⟨es, exec_sknpVx_of_key (s := s.withOut es) hk⟩
  case ldVxK x =>
    cases hk : s.lowestKey
    · cases (exec_ldVxK_of_none hk).symm.trans h
      exact ⟨es, exec_ldVxK_of_none (s := s.withOut es) hk⟩
    · cases (exec_ldVxK_of_some hk).symm.trans h
      exact ⟨es, exec_ldVxK_of_some (s := s.withOut es) hk⟩
  all_goals cases h
  case ldMemVx x => exact ⟨es, congrArg Host.Outcome.next (checked_withOut (storeRegs_withOut x s.advance es))⟩
  case ldVxMem x => exact ⟨es, congrArg Host.Outcome.next (checked_withOut (loadRegs_withOut x s.advance es))⟩
  case ldBVx x => exact ⟨es, congrArg Host.Outcome.next (checked_withOut rfl)⟩
  case drwVxVyN x y n => exact ⟨es, congrArg Host.Outcome.next (checked_withOut rfl)⟩
  all_goals exact ⟨_, rfl⟩

end Sys2Proof.Machine
end

section
/-! The statements about every instruction (40_step_cycle.md R92, R94, 10_state.md R20, R21, 20_memory.md R58). -/

namespace Sys2Proof.Machine

/-! ### Registers -/

/-- An instruction that reads registers only, or none, leaves the register file as it was. -/
theorem exec_regs {i : Instr} {s t : State} (h : exec i s = .next t) (hi : .regs ∉ mayChange i) (r : RegIdx) :
    t.reg r = s.reg r :=
  reg_congr (exec_changes h .regs hi) r

theorem reg_flagThenShift_other {x r : RegIdx} (hx : r ≠ x) (hf : r ≠ vf) (c : Bool) (f : Byte → Byte) (s : State) :
    (flagThenShift x c f s).reg r = s.reg r := by
  rw [reg_flagThenShift, if_neg hx, if_neg hf]

theorem reg_loadRegs_other {x r : RegIdx} (h : r ∉ regsUpTo x) (s : State) : (loadRegs x s).reg r = s.reg r := by
  rw [reg_loadRegs, if_neg (mt (mem_regsUpTo x r).2 h)]

/-- A checked instruction keeps a register if its effect does: a fault keeps it too (R172). -/
theorem checked_reg {c : Option FaultCause} {i : Instr} {s t : State} {r : RegIdx} (h : t.reg r = s.reg r) :
    (checked c i s t).reg r = s.reg r := by
  obtain ⟨_, hc⟩ | ⟨f, _, hc⟩ := checked_cases c i s t
  · rw [hc, h]
  · rw [hc, reg_takeFault]

/-- An instruction writes its destinations and no other register, by what it writes: one register, a result and a flag, or
a range. -/
theorem exec_reg_other {i : Instr} {s t : State} {r : RegIdx} (h : exec i s = .next t) (hr : r ∉ mayWrite i) :
    t.reg r = s.reg r := by
  cases i
  case ldVxKk | addVxKk | ldVxVy | orVxVy | andVxVy | xorVxVy | rndVxKk | ldVxDt =>
    cases h
    exact reg_setReg_other (mt List.mem_singleton.2 hr) _ _
  case ldVxK x =>
    cases h
    split
    · rfl
    · exact reg_setReg_other (mt List.mem_singleton.2 hr) _ _
  case addVxVy | subVxVy | subnVxVy =>
    cases h
    simp only [mayWrite, List.mem_cons, List.not_mem_nil, or_false, not_or] at hr
    exact reg_resultThenFlag_other hr.1 hr.2 _ _ s
  case shrVx | shlVx =>
    cases h
    simp only [mayWrite, List.mem_cons, List.not_mem_nil, or_false, not_or] at hr
    exact reg_flagThenShift_other hr.1 hr.2 _ _ s
  case drwVxVyN x y n =>
    cases h
    obtain ⟨_, hother, _⟩ := drawEffect_spec x y n s.advance
    exact checked_reg (hother r (mt List.mem_singleton.2 hr))
  case ldVxMem x =>
    cases h
    exact checked_reg (reg_loadRegs_other hr s.advance)
  all_goals exact exec_regs h (by simp [mayChange]) r

/-! ### Memory -/

/-- The address of the last byte a store may write: `LD B, Vx` three bytes, `LD [I], Vx` one for each register. -/
def StoresUpTo (i : Instr) (s : State) (hi : Nat) : Prop :=
  (∃ x, i = .ldBVx x ∧ hi = s.ireg.toNat + 2) ∨ ∃ x : RegIdx, i = .ldMemVx x ∧ hi = s.ireg.toNat + x.val

/-- That memory differs only from `lo` to `hi`, and is canonical if it was. -/
def Memory.WrittenIn (lo hi : Nat) (m m' : Memory) : Prop :=
  (∀ a, a < lo ∨ hi < a → m'.read a = m.read a) ∧ (m.wf = true → m'.wf = true)

theorem storeBcd_writtenIn {x : RegIdx} {s : State} (h : s.ireg.toNat + 2 ≤ 0xFFF) :
    Memory.WrittenIn s.ireg.toNat (s.ireg.toNat + 2) s.mem (storeBcd x s).mem := by
  refine ⟨fun a ha => ?_, Memory.wf_writeAll _ _ _⟩
  refine (readByte_storeBcd x s a h).trans ?_
  rw [if_neg (by omega), if_neg (by omega), if_neg (by omega)]
  rfl

theorem storeRegs_writtenIn {x : RegIdx} {s : State} (h : s.ireg.toNat + x.val ≤ 0xFFF) :
    Memory.WrittenIn s.ireg.toNat (s.ireg.toNat + x.val) s.mem (storeRegs x s).mem := by
  refine ⟨fun a ha => ?_, storeRegs_wf x s⟩
  refine (readByte_storeRegs x s a (Nat.lt_succ_of_le h)).trans (if_neg ?_)
  simp only [effAddr]
  omega

/-- A checked store leaves memory as it is if it faults, and else writes in its range, above the font. -/
theorem checked_store {i : Instr} {s t : State} {hi : Nat}
    (h : hi ≤ 0xFFF → Memory.WrittenIn s.ireg.toNat hi s.mem t.mem) :
    (checked (checkWrite (effAddr s 0) hi) i s t).mem = s.mem ∨ 0x050 ≤ s.ireg.toNat ∧ hi ≤ 0xFFF ∧
      Memory.WrittenIn s.ireg.toNat hi s.mem (checked (checkWrite (effAddr s 0) hi) i s t).mem := by
  obtain ⟨hc, hu⟩ | ⟨f, _, hu⟩ := checked_cases (checkWrite (effAddr s 0) hi) i s t
  · obtain ⟨hhi, hlo⟩ := checkWrite_eq_none.1 hc
    rw [hu]
    exact .inr ⟨hlo, hhi, h hhi⟩
  · rw [hu]
    exact .inl rfl

/-- Everything an instruction can do to memory. -/
theorem exec_mem_or_stores {i : Instr} {s t : State} (h : exec i s = .next t) :
    t.mem = s.mem ∨ ∃ hi, StoresUpTo i s hi ∧ 0x050 ≤ s.ireg.toNat ∧ hi ≤ 0xFFF ∧
      Memory.WrittenIn s.ireg.toNat hi s.mem t.mem := by
  by_cases hm : .memory ∈ mayChange i
  · obtain ⟨x, rfl⟩ | ⟨x, rfl⟩ := memory_mem_mayChange.1 hm <;> cases h
    · exact (checked_store (s := s) (storeBcd_writtenIn (s := s.advance))).imp_right fun hs => ⟨_, .inl ⟨x, rfl, rfl⟩, hs⟩
    · exact (checked_store (s := s) (storeRegs_writtenIn (s := s.advance))).imp_right fun hs => ⟨_, .inr ⟨x, rfl, rfl⟩, hs⟩
  · exact .inl (exec_changes h .memory hm)

/-! ### The statements -/

/-- Settles O19: the meaning of each constructor is a next state. -/
theorem noInstructionIsRefused : Obligations.NoInstructionIsRefused := by
  intro i s
  cases i <;> exact ⟨_, rfl⟩

/-- Settles O20: an instruction that raises changes `PC` and the latch, one that completes what its operations change. -/
theorem instructionsKeepTheRest : Obligations.InstructionsKeepTheRest := fun _ _ _ h => (exec_changes h).keepsAllBut

/-- Settles O18: a timer is named by one instruction's rule only, whose effect is to set it. -/
theorem instructionsOnlySetTimers : Obligations.InstructionsOnlySetTimers := by
  refine fun i s t h => ⟨fun hne => ?_, fun hne => ?_⟩
  · obtain ⟨x, rfl⟩ := delay_mem_mayChange.1 (not_not.1 (mt (exec_changes h .delay) hne))
    cases h
    exact ⟨x, rfl, rfl⟩
  · obtain ⟨x, rfl⟩ := sound_mem_mayChange.1 (not_not.1 (mt (exec_changes h .sound) hne))
    cases h
    exact ⟨x, rfl, rfl⟩

/-- Settles O21, by what each instruction writes. -/
theorem registersChangeOnlyAsDestinations : Obligations.RegistersChangeOnlyAsDestinations :=
  fun _ _ _ _ => exec_reg_other

/-- Settles O22: a byte outside the range of a store that passed its check is as before. -/
theorem memoryChangesOnlyByStores : Obligations.MemoryChangesOnlyByStores := by
  intro i s t a h hne
  obtain hmem | ⟨hi, hstore, hlo, hhi, hout, _⟩ := exec_mem_or_stores h
  · exact absurd (congrArg (Memory.read · a) hmem) hne
  · have ha : s.ireg.toNat ≤ a ∧ a ≤ hi := by
      by_contra hnot
      exact hne (hout a (by omega))
    refine ⟨by omega, by omega, ha.1, ?_⟩
    obtain ⟨x, rfl, rfl⟩ | ⟨x, rfl, rfl⟩ := hstore
    · exact .inl ⟨x, rfl, ha.2⟩
    · exact .inr ⟨x, rfl, ha.2⟩

/-- Settles O23: an instruction that has not raised leaves the latch empty. -/
theorem raisingChangesOnlyLatchAndPc : Obligations.RaisingChangesOnlyLatchAndPc := by
  intro i s t hs h ht
  obtain ⟨hraise, c, rfl⟩ | hfault := exec_raises_or_fault h
  · exact ⟨hraise, takeFault_pc s c i, ⟨c, takeFault_fault s c i⟩, (takeFault_changes s c i).keepsAllBut⟩
  · exact absurd (hfault.trans hs) ht

/-- Settles O24: with other events before, the next state differs in the events alone. -/
theorem eventsAreNeverRead : Obligations.EventsAreNeverRead := by
  intro i s t es h
  obtain ⟨es', hu⟩ := exec_withOut h es
  exact ⟨_, hu, (changesOnly_withPart .events t (t.withOut es')).keepsAllBut⟩

end Sys2Proof.Machine
end

section
/-! The transitions and the frame (60_exceptions.md R180 to R186): what each transition answers, and the invariant. -/

namespace Sys2Proof.Machine

/-! ### The transitions, one equation for each -/

section
variable {P : Config.Params} {q : FrameRequest} {s : State} {f : FrameRun}

theorem stepWith_between_frozen (hframe : s.frame = none) (hfault : s.fault ≠ none) : stepWith P q s = .next s := by
  rw [stepWith, hframe]
  exact if_pos (Option.isSome_iff_ne_none.2 hfault)

theorem stepWith_between_rejected (hframe : s.frame = none) (hfault : s.fault = none) (hrom : s.rom = .rejected) :
    stepWith P q s = .refused .frameAfterRomTooLarge := by
  simp [stepWith, hframe, hfault, hrom]

theorem stepWith_between (hframe : s.frame = none) (hfault : s.fault = none) (hrom : s.rom ≠ .rejected) :
    stepWith P q s = .next (beginFrame P q s) := by
  simp [stepWith, hframe, hfault, hrom]

theorem stepWith_slot (hframe : s.frame = some f) (hslots : f.slots ≠ 0) (hen : stepEnabled P s = true) :
    stepWith P q s = slotStep f s := by
  simp [stepWith, hframe, hslots, hen]

theorem stepWith_end (hframe : s.frame = some f) (h : f.slots = 0 ∨ stepEnabled P s = false) :
    stepWith P q s = .next (endFrame f s) := by
  rw [stepWith, hframe]
  exact if_neg fun ⟨hslots, hen⟩ => h.elim hslots fun hdis => absurd (hen.symm.trans hdis) (by decide)

theorem slotStep_of_fetch {w : Word} (hw : fetch s = some w) :
    slotStep f s = exec (decode w) (takeSlot f (decode w) s) := by
  rw [slotStep, hw]

theorem closeFrame_of_frame (hframe : s.frame = some f) : closeFrame s = endFrame f s := by
  rw [closeFrame, hframe]

theorem endFrame_of_skipped (h : s.fault ≠ none ∨ f.tickDue = false) : endFrame f s = { s with frame := none } := by
  obtain ⟨hfault, hdue, _⟩ | ⟨_, hphase⟩ := timerPhase_cases f.tickDue s
  · exact absurd hfault (h.resolve_right fun hnot => absurd (hdue.symm.trans hnot) (by decide))
  · rw [endFrame, hphase]

theorem endFrame_of_due (hfault : s.fault = none) (hdue : f.tickDue = true) :
    endFrame f s = { timerTick s with frame := none } := by
  rw [endFrame, timerPhase, hfault, hdue]
  rfl

/-- The guard fails exactly when a fault is latched or the core is parked (40_step_cycle.md R90). -/
theorem stepEnabled_eq_false_iff : stepEnabled P s = false ↔ s.fault ≠ none ∨ P.pcLimit ≤ s.pc.toNat := by
  rw [← Bool.not_eq_true, stepEnabled_iff, not_and_or, not_lt]

end

/-! ### The statements on single transitions -/

/-- Settles O9: each clause is one branch of the transition function with the default parameters. -/
theorem stepRunsTheDecodedInstruction : Obligations.StepRunsTheDecodedInstruction := by
  refine ⟨fun s f i rest hframe hslots hfault hpc hdecode => ?_,
    fun s f i => ⟨rfl, rfl, rfl, (takeSlot_changes s f i).keepsAllBut⟩,
    fun s hframe hfault hrom => stepWith_between hframe hfault hrom,
    fun s f hframe h => stepWith_end hframe (h.imp_right stepEnabled_eq_false_iff.2)⟩
  have hi : decode (s.readWord s.pc.toNat) = i := by
    cases hdecode
    rfl
  have hw : fetch s = some (s.readWord s.pc.toNat) := if_pos (by simp only [Config.memSize]; omega)
  rw [step, stepWith_slot hframe hslots (stepEnabled_iff.2 ⟨hfault, hpc⟩), slotStep_of_fetch hw, hi]

/-- Settles O12: with a fault latched the guard fails, the timer phase is skipped, and only the frame can be left. -/
theorem frozenCoreChangesNothing : Obligations.FrozenCoreChangesNothing := by
  intro P q s hfault
  have hdis : stepEnabled P s = false := stepEnabled_eq_false_iff.2 (.inl hfault)
  refine ⟨hdis, if_pos (Option.isSome_iff_ne_none.2 hfault), ?_⟩
  cases hframe : s.frame with
  | none =>
    exact ⟨s, stepWith_between_frozen hframe hfault, rfl, fun _ => hframe,
      ((changesOnly_refl s).mono (List.nil_subset _)).keepsAllBut⟩
  | some f =>
    have hend := endFrame_of_skipped (f := f) (.inl hfault)
    exact ⟨_, (stepWith_end hframe (.inr hdis)).trans (congrArg _ hend), rfl, nofun,
      (changesOnly_withPart .sequencer s { s with frame := none }).keepsAllBut⟩

/-- Where the instruction at `PC` leaves the state as it is, a transition only uses a slot. -/
theorem stepWith_of_idle {P : Config.Params} {q : FrameRequest} {s : State} {f : FrameRun} {i : Instr} (hP : P.ok)
    (hframe : s.frame = some f) (hslots : f.slots ≠ 0) (hen : stepEnabled P s = true)
    (hi : decode (s.readWord s.pc.toNat) = i) (hidle : exec i (takeSlot f i s) = .next (takeSlot f i s)) :
    stepWith P q s = .next (takeSlot f i s) := by
  rw [stepWith_slot hframe hslots hen, slotStep_of_fetch (fetch_of_enabled hP hen), hi, hidle]

/-- Settles O14: what makes the core blocked or spinning is read from parts that using a slot keeps. -/
theorem blockedOrSpinningCoreStaysSo : Obligations.BlockedOrSpinningCoreStaysSo := by
  intro P q s f hP hframe hslots
  refine ⟨fun ⟨hen, ⟨x, hx⟩, hkeys⟩ => ?_, fun ⟨hen, nnn, hnnn, hpc⟩ => ?_⟩
  · have hidle := exec_ldVxK_of_none (x := x) (lowestKey_eq_none.2 (show (takeSlot f (.ldVxK x) s).keys = 0 from hkeys))
    exact ⟨_, stepWith_of_idle hP hframe hslots hen hx hidle, rfl, ⟨hen, ⟨x, hx⟩, hkeys⟩,
      (takeSlot_changes s f _).keepsAllBut⟩
  · have hidle : exec (.jp nnn) (takeSlot f (.jp nnn) s) = .next (takeSlot f (.jp nnn) s) := by
      rw [exec_jp, hpc]
      rfl
    exact ⟨_, stepWith_of_idle hP hframe hslots hen hnnn hidle, rfl, ⟨hen, nnn, hnnn, hpc⟩,
      (takeSlot_changes s f _).keepsAllBut⟩

end Sys2Proof.Machine
end

section
/-! The invariant of 10_state.md R35: it holds at reset and every transition keeps it. -/

namespace Sys2Proof.Machine

section
variable {P : Config.Params} {s t : State}

/-- The invariant reads memory, the latch and `PC` only. -/
theorem Inv_of_changesOnly {ps : List Part} (h : changesOnly ps s t) (hmem : .memory ∉ ps) (hlatch : .latch ∉ ps)
    (hpc : .pc ∉ ps) (hs : s.Inv P) : t.Inv P := by
  have hm : t.mem = s.mem := h .memory hmem
  have hl : t.fault = s.fault := h .latch hlatch
  have hp : t.pc = s.pc := h .pc hpc
  obtain ⟨hwf, hfont, hcoherent⟩ := hs
  exact ⟨hm ▸ hwf, hm ▸ hfont, fun r hr => hp.trans (hcoherent r (hl.symm.trans hr))⟩

/-- The fault entry leaves `PC` just after the instruction it records (R172). -/
theorem takeFault_latchCoherent (c : FaultCause) (i : Instr) (s : State) : (takeFault c i s).latchCoherent := by
  intro r hr
  cases hr
  rfl

/-- A write above the font keeps the font and the canonical form. -/
theorem Memory.WrittenIn.wf_and_fontIntact {lo hi : Nat} {m m' : Memory} {font : Vector Byte 80}
    (h : Memory.WrittenIn lo hi m m') (hlo : 0x050 ≤ lo) (hwf : m.wf = true) (hfont : m.fontIntact font) :
    m'.wf = true ∧ m'.fontIntact font :=
  ⟨h.2 hwf, fun a => (h.1 a (.inl (by omega))).trans (hfont a)⟩

/-- An instruction that runs keeps the invariant: it stores above the font only, and latches a coherent record if any. -/
theorem exec_keeps_Inv {i : Instr} (hs : s.Inv P) (hfault : s.fault = none) (h : exec i s = .next t) : t.Inv P := by
  obtain ⟨hwf, hfont, _⟩ := hs
  have hmem : t.mem.wf = true ∧ t.mem.fontIntact P.font := by
    obtain hmem | ⟨hi, _, hlo, _, hwritten⟩ := exec_mem_or_stores h
    · exact hmem ▸ ⟨hwf, hfont⟩
    · exact hwritten.wf_and_fontIntact hlo hwf hfont
  refine ⟨hmem.1, hmem.2, ?_⟩
  obtain ⟨_, c, rfl⟩ | hlatch := exec_raises_or_fault h
  · exact takeFault_latchCoherent c i s
  · exact fun r hr => absurd (hr.symm.trans (hlatch.trans hfault)) (by simp)

end

/-- Settles O25, by cases on what a transition can be: only an instruction reaches memory, the latch or `PC`. -/
theorem everyStepKeepsTheInvariant : Obligations.EveryStepKeepsTheInvariant := by
  intro P q s t hs h
  obtain ⟨_, _, rfl⟩ | ⟨_, _, _, rfl⟩ | ⟨f, _, _, rfl⟩ | ⟨f, w, _, _, hen, _, hexec⟩ := stepWith_cases h
  · exact hs
  · exact Inv_of_changesOnly (beginFrame_changes s P q) (by decide) (by decide) (by decide) hs
  · exact Inv_of_changesOnly (endFrame_changes s f) (by decide) (by decide) (by decide) hs
  · exact exec_keeps_Inv (Inv_of_changesOnly (takeSlot_changes s f _) (by decide) (by decide) (by decide) hs)
      (stepEnabled_iff.1 hen).1 hexec

theorem resetWith_Inv (P : Config.Params) : (State.resetWith P).Inv P := by
  refine ⟨Memory.wf_ofBytes _ 0 (by simp [Config.memSize]), fun a => ?_, nofun⟩
  exact (readByte_resetWith P a).trans (dif_pos a.isLt)

/-- Settles O26: memory made of the font's bytes is canonical and reads as them, and no fault is latched. -/
theorem resetMeetsTheInvariant : Obligations.ResetMeetsTheInvariant := ⟨resetWith_Inv Config.params, resetWith_Inv⟩

end Sys2Proof.Machine
end

section
/-! The frame as one transaction and as its transitions (60_exceptions.md R180 to R186). -/

namespace Sys2Proof.Machine

/-! ### One slot -/

section
variable {P : Config.Params} {q : FrameRequest} {s t : State} {f : FrameRun}

/-- Everything a slot can do: it answers a next state with one slot less in the frame, or its fetch faults. -/
theorem slotStep_cases (f : FrameRun) (s : State) :
    (∃ t, slotStep f s = .next t ∧ t.frame = some { f with slots := f.slots - 1 }) ∨ ∃ r, slotStep f s = .fault r := by
  cases hw : fetch s with
  | none => exact .inr ⟨_, by rw [slotStep, hw]⟩
  | some w =>
    obtain ⟨t, ht⟩ := noInstructionIsRefused (decode w) (takeSlot f (decode w) s)
    exact .inl ⟨t, (slotStep_of_fetch hw).trans ht, exec_frame ht⟩

/-! ### The instruction phase -/

theorem runSlots_of_disabled (h : stepEnabled P s = false) (n : Nat) : runSlots P n s = .next s := by
  cases n with
  | zero => rfl
  | succ n =>
    cases hframe : s.frame with
    | none => rw [runSlots, hframe]
    | some f => simp [runSlots, hframe, h]

theorem runSlots_succ_of_next (hframe : s.frame = some f) (hen : stepEnabled P s = true) (ht : slotStep f s = .next t)
    (n : Nat) : runSlots P (n + 1) s = runSlots P n t := by
  simp [runSlots, hframe, hen, ht]

theorem runSlots_succ_of_fault {r : Fault} (hframe : s.frame = some f) (hen : stepEnabled P s = true)
    (hr : slotStep f s = .fault r) (n : Nat) : runSlots P (n + 1) s = .fault r := by
  simp [runSlots, hframe, hen, hr]

/-- The instruction phase stays in its frame, with the same `tick_due`. -/
theorem runSlots_frame {u : State} (n : Nat) : ∀ {s : State} {f : FrameRun}, s.frame = some f →
    runSlots P n s = .next u → ∃ f', u.frame = some f' ∧ f'.tickDue = f.tickDue := by
  induction n with
  | zero =>
    intro s f hframe hu
    cases hu
    exact ⟨f, hframe, rfl⟩
  | succ n ih =>
    intro s f hframe hu
    cases hen : stepEnabled P s with
    | false =>
      cases (runSlots_of_disabled hen (n + 1)).symm.trans hu
      exact ⟨f, hframe, rfl⟩
    | true =>
      obtain ⟨t, ht, hframe'⟩ | ⟨r, hr⟩ := slotStep_cases f s
      · rw [runSlots_succ_of_next hframe hen ht] at hu
        obtain ⟨f', hf', hdue⟩ := ih hframe' hu
        exact ⟨f', hf', hdue⟩
      · rw [runSlots_succ_of_fault hframe hen hr] at hu
        cases hu

/-! ### The whole frame -/

/-- The end of the frame in progress, where the instruction phase answered a next state. -/
def Result.close : Result → Result
  | .next t => .next (closeFrame t)
  | .fault r => .fault r
  | .refused r => .refused r

theorem Result.close_eq_next {r : Result} (h : r.close = .next t) : ∃ u, r = .next u ∧ t = closeFrame u := by
  cases r with
  | next u =>
    cases h
    exact ⟨u, rfl, rfl⟩
  | fault r => cases h
  | refused r => cases h

theorem runFrame_eq_close (hfault : s.fault = none) (hrom : s.rom ≠ .rejected) :
    runFrame P q s = (runSlots P P.ipf (beginFrame P q s)).close := by
  rw [runFrame, hfault, if_neg (by decide), if_neg hrom]
  rfl

theorem runFrame_of_rejected (hfault : s.fault = none) (hrom : s.rom = .rejected) :
    runFrame P q s = .refused .frameAfterRomTooLarge := by
  rw [runFrame, hfault, if_neg (by decide), if_pos hrom]

theorem runSteps_succ_of_next (h : stepWith P q s = .next t) (k : Nat) :
    runSteps P q (k + 1) s = runSteps P q k t := by
  rw [runSteps, h]

theorem runSteps_succ_of_fault {r : Fault} (h : stepWith P q s = .fault r) (k : Nat) :
    runSteps P q (k + 1) s = .fault r := by
  rw [runSteps, h]

/-- From inside a frame, a transition for each slot and one for the end of the frame do what the rest of the transaction
does: by induction on the slots left. -/
theorem runSteps_of_slots (P : Config.Params) (q : FrameRequest) (n : Nat) : ∀ {s : State} {f : FrameRun},
    s.frame = some f → f.slots = n → ∃ k, k ≤ n + 1 ∧ runSteps P q k s = (runSlots P n s).close := by
  have hend : ∀ {s : State} {f : FrameRun} (n : Nat), s.frame = some f → (f.slots = 0 ∨ stepEnabled P s = false) →
      runSlots P n s = .next s → ∃ k, k ≤ n + 1 ∧ runSteps P q k s = (runSlots P n s).close := by
    intro s f n hframe h hs
    refine ⟨1, by omega, ?_⟩
    rw [runSteps_succ_of_next (stepWith_end hframe h), hs, ← closeFrame_of_frame hframe]
    rfl
  induction n with
  | zero => exact fun hframe hslots => hend 0 hframe (.inl hslots) rfl
  | succ n ih =>
    intro s f hframe hslots
    cases hen : stepEnabled P s with
    | false => exact hend (n + 1) hframe (.inr hen) (runSlots_of_disabled hen (n + 1))
    | true =>
      have hstep : stepWith P q s = slotStep f s := stepWith_slot hframe (by omega) hen
      obtain ⟨t, ht, hframe'⟩ | ⟨r, hr⟩ := slotStep_cases f s
      · obtain ⟨k, hk, hrun⟩ := ih hframe' (by simp [hslots])
        refine ⟨k + 1, by omega, ?_⟩
        rw [runSteps_succ_of_next (hstep.trans ht), runSlots_succ_of_next hframe hen ht, hrun]
      · refine ⟨1, by omega, ?_⟩
        rw [runSteps_succ_of_fault (hstep.trans hr), runSlots_succ_of_fault hframe hen hr]
        rfl

end

/-! ### The statements on frames -/

/-- Settles O11: the first transition begins the frame, and the others are its slots and its end. -/
theorem frameIsItsTransitions : Obligations.FrameIsItsTransitions := by
  intro P q s hframe hfault hrom
  obtain ⟨k, hk, hrun⟩ := runSteps_of_slots P q P.ipf (beginFrame_frame s P q) rfl
  refine ⟨k + 1, by omega, ?_⟩
  rw [runSteps_succ_of_next (stepWith_between hframe hfault hrom), hrun, runFrame_eq_close hfault hrom]

/-- Settles O13: the guard fails before the first slot, so the frame is the key push and the timer phase. -/
theorem parkedCoreOnlyTicks : Obligations.ParkedCoreOnlyTicks := by
  intro P q s _ hfault hrom hparked
  have hdis : stepEnabled P (beginFrame P q s) = false := stepEnabled_eq_false_iff.2 (.inr hparked)
  have hrun : runFrame P q s = .next (endFrame ⟨P.ipf, q.tickDue, q.debug⟩ (beginFrame P q s)) := by
    rw [runFrame_eq_close hfault hrom, runSlots_of_disabled hdis]
    rfl
  have hkeeps := (((beginFrame_changes s P q).trans (endFrame_changes _ ⟨P.ipf, q.tickDue, q.debug⟩)).mono
    (qs := [.keys, .delay, .sound, .soundPrev, .sequencer, .draws, .events]) (by decide)).keepsAllBut
  refine ⟨_, hrun, ?_⟩
  cases hdue : q.tickDue with
  | true =>
    have hend : endFrame ⟨P.ipf, true, q.debug⟩ (beginFrame P q s) = { timerTick (beginFrame P q s) with frame := none } :=
      endFrame_of_due hfault rfl
    rw [hdue, hend] at hkeeps
    rw [hend]
    exact ⟨rfl, rfl, rfl, rfl, rfl, congrArg (s.out ++ ·) (if_congr (by simp) rfl rfl), rfl, rfl, hkeeps⟩
  | false =>
    have hend : endFrame ⟨P.ipf, false, q.debug⟩ (beginFrame P q s) = { beginFrame P q s with frame := none } :=
      endFrame_of_skipped (.inr rfl)
    rw [hdue, hend] at hkeeps
    rw [hend]
    exact ⟨rfl, rfl, rfl, rfl, rfl, by simp, rfl, rfl, hkeeps⟩

/-- Settles O17: the frame ends in the timer phase of the state its slots left, with the `tick_due` of the request. -/
theorem tickDoesNotDependOnTheSlots : Obligations.TickDoesNotDependOnTheSlots := by
  intro P q s t hframe hfault h
  have hrom : s.rom ≠ .rejected := fun hrej => by
    cases (runFrame_of_rejected hfault hrej).symm.trans h
  obtain ⟨u, hu, rfl⟩ := Result.close_eq_next ((runFrame_eq_close hfault hrom).symm.trans h)
  obtain ⟨f, hf, hdue⟩ := runSlots_frame P.ipf (beginFrame_frame s P q) hu
  rw [closeFrame_of_frame hf]
  refine ⟨u, hu, rfl, fun hnone htick => ?_, fun hskip => ?_,
    ((endFrame_changes u f).mono (by decide)).keepsAllBut⟩
  · rw [endFrame_of_due hnone (hdue.trans htick)]
    exact ⟨rfl, rfl, rfl, rfl⟩
  · rw [endFrame_of_skipped (hskip.imp_right hdue.trans)]
    exact ⟨rfl, rfl, rfl, rfl⟩

/-! ### The timer tick (R184, R186) -/

theorem toNat_countDown (b : Byte) : (countDown b).toNat = b.toNat - 1 := by
  by_cases h : b = 0
  · simp [countDown, h]
  · rw [countDown, if_neg h]
    bv_omega

/-- Settles O15: a countdown has its floor at 0, and the edge is looked for before it. -/
theorem timerTickCountsDown : Obligations.TimerTickCountsDown := fun s =>
  ⟨toNat_countDown s.dt, toNat_countDown s.st, decide_eq_true_iff, rfl, (timerTick_changes s).keepsAllBut⟩

/-- That `sound_prev` remembers whether `ST` is not 0, so that no tick sees an edge. -/
def State.SoundSettled (s : State) : Prop := s.soundPrev = decide (s.st ≠ 0)

theorem timerTick_settled (s : State) : (timerTick s).SoundSettled := rfl

/-- Ticks emit nothing while `sound_prev` remembers `ST`: by induction on their number, for each tick remembers it again. -/
theorem out_iterate_timerTick (k : Nat) : ∀ {s : State}, s.SoundSettled → (timerTick^[k] s).out = s.out := by
  induction k with
  | zero => exact fun _ => rfl
  | succ k ih =>
    intro s hs
    have hno : ¬ (s.st ≠ 0 ∧ s.soundPrev = false) := fun ⟨hst, hprev⟩ => by
      rw [State.SoundSettled, hprev] at hs
      exact absurd hs (by simpa using hst)
    rw [Function.iterate_succ_apply, ih (timerTick_settled s), timerTick_out, if_neg hno, List.append_nil]

/-- Settles O16: the first tick emits the edge, and after it `sound_prev` remembers `ST`. -/
theorem soundEdgeOncePerRise : Obligations.SoundEdgeOncePerRise := by
  intro s k hst hprev
  rw [Function.iterate_succ_apply, out_iterate_timerTick k (timerTick_settled s), timerTick_out, if_pos ⟨hst, hprev⟩]

end Sys2Proof.Machine
end

section
/-! Reset, the ROM load and the placed instruction (10_state.md R34, 70_reset_and_hazards.md R203, R204). -/

namespace Sys2Proof.Machine

/-! ### Reset -/

/-- Settles O1: each field by unfolding, memory by what its bytes read as. -/
theorem resetLeavesTheSpecsValues : Obligations.ResetLeavesTheSpecsValues := by
  refine ⟨fun P s hs => ?_, rfl⟩
  subst hs
  refine ⟨fun r => ?_, rfl, rfl, rfl, fun j => ?_, rfl, rfl, rfl, fun j => Framebuffer.pixel_clear _ _, rfl, rfl,
    fun a => ?_, fun a hlo _ => ?_⟩
  · exact Vector.getElem_replicate r.isLt
  · exact Vector.getElem_replicate j.isLt
  · exact (readByte_resetWith P a).trans (dif_pos a.isLt)
  · exact (readByte_resetWith P a).trans (dif_neg (by omega))

/-! ### The ROM load -/

section
variable {bytes : List Byte} {s : State}

theorem loadRom_of_fits (hadm : loadAdmitted s = true) (hlen : bytes.length ≤ 3584) :
    loadRom bytes s = ({ s with mem := s.mem.writeAll Config.romBase bytes, rom := .loaded }, .ok) := by
  rw [loadRom, if_neg (by simp [hadm])]
  exact if_neg (Nat.not_lt.2 hlen)

theorem loadRom_of_too_large (hadm : loadAdmitted s = true) (hlen : 3584 < bytes.length) :
    loadRom bytes s = ({ s with rom := .rejected }, .romTooLarge) := by
  rw [loadRom, if_neg (by simp [hadm])]
  exact if_pos hlen

theorem frame_of_loadAdmitted (hadm : loadAdmitted s = true) : s.frame = none := by
  simp only [loadAdmitted, Bool.and_eq_true, Option.isNone_iff_eq_none] at hadm
  exact hadm.2

end

/-- Settles O2: the load is one write of a byte sequence that fits from 0x200. -/
theorem romLoadCopiesVerbatim : Obligations.RomLoadCopiesVerbatim := by
  intro bytes s hadm hlen
  have hread := fun a => Memory.read_writeAll bytes s.mem 0x200 a (by simp only [Config.memSize]; omega)
  rw [loadRom_of_fits hadm hlen]
  refine ⟨rfl, fun k hk => ?_, fun a ha => (hread a).trans (dif_neg ha), ?_⟩
  · refine (hread _).trans ((dif_pos (by omega)).trans ?_)
    simp only [Nat.add_sub_cancel_left]
  · exact ((changesOnly_withPart .memory s { s with mem := s.mem.writeAll Config.romBase bytes }).trans
      (changesOnly_withPart .rom _ { s with rom := .loaded })).keepsAllBut

/-- Settles O3: only the record of the load changes, and a rejected load refuses the next frame request. -/
theorem romTooLargeWritesNothing : Obligations.RomTooLargeWritesNothing := by
  intro bytes s hadm hfault hlen
  rw [loadRom_of_too_large hadm hlen]
  exact ⟨rfl, (changesOnly_withPart .rom s { s with rom := .rejected }).keepsAllBut,
    stepWith_between_rejected (s := { s with rom := .rejected }) (frame_of_loadAdmitted (s := s) hadm) hfault rfl⟩

/-! ### The placed instruction -/

/-- The word a fetch reads where the two bytes of a word were stored (20_memory.md R53). -/
theorem read_writeAll_bytesOfWord (m : Memory) {a : Nat} (h : a + 2 ≤ Config.memSize) (w : Word) :
    wordOfBytes ((m.writeAll a (bytesOfWord w)).read a) ((m.writeAll a (bytesOfWord w)).read (a + 1)) = w := by
  have hread := fun a' => Memory.read_writeAll (bytesOfWord w) m a a' h
  have hhi : (m.writeAll a (bytesOfWord w)).read a = w.extractLsb' 8 8 := by
    rw [hread, dif_pos (by simp [bytesOfWord])]
    simp [bytesOfWord]
  have hlo : (m.writeAll a (bytesOfWord w)).read (a + 1) = w.extractLsb' 0 8 := by
    rw [hread, dif_pos (by simp [bytesOfWord])]
    simp [bytesOfWord]
  rw [hhi, hlo, wordOfBytes_bytesOfWord]

theorem fetchPc_lt (s : State) : s.fetchPc.toNat < Config.params.pcLimit := by
  rw [State.fetchPc]
  split
  · assumption
  · decide

theorem fetchFrame_slots_ne_zero (s : State) : s.fetchFrame.slots ≠ 0 := by
  rw [State.fetchFrame]
  split
  · split
    · exact one_ne_zero
    · assumption
  · exact one_ne_zero

theorem ofNat_mod_two_pow (w : Nat) : BitVec.ofNat 16 (w % 2 ^ 16) = BitVec.ofNat 16 w :=
  BitVec.eq_of_toNat_eq (by simp)

theorem fetch_withFetchWord (s : State) (w : Nat) : fetch (s.withFetchWord 16 w) = some (BitVec.ofNat 16 w) := by
  have hpc : s.fetchPc.toNat + 2 ≤ Config.memSize := by
    have hlt := fetchPc_lt s
    have hlim : Config.params.pcLimit = 0x0FFE := rfl
    simp only [Config.memSize]
    omega
  refine (if_pos (show s.fetchPc.toNat + 1 < Config.memSize by omega)).trans (congrArg some ?_)
  rw [← ofNat_mod_two_pow w]
  exact read_writeAll_bytesOfWord s.mem hpc _

/-- Settles O60: the placed state has a slot left and its guard holds, and the fetch reads the placed word. -/
theorem placedWordRunsNext : Obligations.PlacedWordRunsNext := by
  refine fun s w => ⟨?_, ?_⟩
  · rw [decodeTableWord, ofNat_mod_two_pow, bytesOfWord, decodeBytes, wordOfBytes_bytesOfWord]
  · have hen : stepEnabled Config.params (s.withFetchWord 16 w) = true := stepEnabled_iff.2 ⟨rfl, fetchPc_lt s⟩
    rw [step, stepWith_slot (f := s.fetchFrame) rfl (fetchFrame_slots_ne_zero s) hen,
      slotStep_of_fetch (fetch_withFetchWord s w)]

end Sys2Proof.Machine
end

section
/-! Control flow and input (41_control_flow.md R101 to R106, 46_input.md R150 to R152). -/

namespace Sys2Proof.Machine

/-! ### The stack -/

/-- Settles O28: the push writes the slot `SP` names. -/
theorem callPushesAndJumps : Obligations.CallPushesAndJumps := by
  intro nnn s hsp
  refine ⟨_, exec_call_of_room hsp nnn, toNat_zextAddr nnn, rfl, fun j => ?_, (withPcStack_changes s _ _ _).keepsAllBut⟩
  simp only [Fin.getElem_fin, Vector.getElem_set, eq_comm]

/-- Settles O29: the pop reads the slot below `SP` and leaves every slot as it was. -/
theorem retPopsAndJumps : Obligations.RetPopsAndJumps := by
  intro u s j hsp
  have htop : s.sp.val - 1 = j.val := by omega
  refine ⟨_, exec_ret_of_pos (by omega) u, ?_, htop, fun _ => rfl, (withPcStack_changes s _ _ _).keepsAllBut⟩
  simp only [htop, Fin.getElem_fin]

/-! ### Faults -/

/-- What a raise leaves: `PC` advanced, the record latched, nothing else changed (60_exceptions.md R172). -/
theorem exec_raised {c : FaultCause} {i : Instr} {s : State} (h : exec i s = .next (takeFault c i s)) :
    ∃ t, exec i s = .next t ∧ t.pc = s.pc + 2 ∧ t.fault = some { cause := c, addr := s.pc, word := encode i } ∧
      keepsAllBut [.pc, .latch] s t :=
  ⟨_, h, rfl, rfl, (takeFault_changes s c i).keepsAllBut⟩

/-- Settles O30: each of the four has one check, and raises where it fails. -/
theorem stackAndKeyFaultsAreLatched : Obligations.StackAndKeyFaultsAreLatched := by
  refine ⟨fun nnn s hsp => exec_raised (exec_call_of_full hsp nnn), fun u s hsp => exec_raised (exec_ret_of_empty hsp u),
    fun x s hx => ?_⟩
  have hkey := keyOperand_eq_none.2 hx
  exact ⟨exec_raised (exec_skpVx_of_none hkey), exec_raised (exec_sknpVx_of_none hkey)⟩

/-! ### Skips -/

theorem exec_seVxVy (x y : RegIdx) (u : Nibble) (s : State) :
    exec (.seVxVy x y u) s = .next (s.setPc (if s.reg x = s.reg y then s.pc + 4 else s.pc + 2)) :=
  congrArg Host.Outcome.next (advance_skipIf s _)

theorem exec_sneVxVy (x y : RegIdx) (u : Nibble) (s : State) :
    exec (.sneVxVy x y u) s = .next (s.setPc (if s.reg x ≠ s.reg y then s.pc + 4 else s.pc + 2)) :=
  congrArg Host.Outcome.next (advance_skipIf s _)

/-- Settles O32: both skips are one write of `PC`; bytes are equal exactly when their numbers are. -/
theorem skipsCompareRegisters : Obligations.SkipsCompareRegisters := by
  refine ⟨fun x y u s => ⟨_, exec_seVxVy x y u s, ?_, setPc_keepsAllButPc s _⟩,
    fun x y u s => ⟨_, exec_sneVxVy x y u s, ?_, setPc_keepsAllButPc s _⟩⟩
  · simp only [setPc_pc, BitVec.toNat_inj]
  · simp only [setPc_pc, BitVec.toNat_inj, ne_eq, ite_not]

/-! ### Keys -/

/-- Settles O56: `Vx` names the key with its number, and both skips are one write of `PC`. -/
theorem keySkipsTestTheLatch : Obligations.KeySkipsTestTheLatch := by
  intro x s hx
  have hkey : keyOperand s x = some ⟨(s.reg x).toNat, by omega⟩ := keyOperand_eq_some.2 rfl
  exact ⟨⟨_, exec_skpVx_of_key hkey, rfl, setPc_keepsAllButPc s _⟩,
    ⟨_, exec_sknpVx_of_key hkey, rfl, setPc_keepsAllButPc s _⟩⟩

/-- Settles O57: the lowest held key is none exactly when none is held. -/
theorem keyWaitLoadsTheLowestKey : Obligations.KeyWaitLoadsTheLowestKey := by
  refine ⟨fun x s hkeys => exec_ldVxK_of_none (lowestKey_eq_none.2 hkeys), fun x s hkeys => ?_⟩
  cases hk : s.lowestKey with
  | none => exact absurd (lowestKey_eq_none.1 hk) hkeys
  | some k =>
    obtain ⟨hheld, hlower⟩ := lowestKey_eq_some hk
    refine ⟨_, k.val, exec_ldVxK_of_some hk, rfl, k.isLt, hheld, fun j hj => hlower ⟨j, hj.trans k.isLt⟩ hj, ?_,
      fun r hr => reg_setReg_other hr s.advance _, (advance_setReg_changes s x _).keepsAllBut⟩
    rw [reg_setReg_same, BitVec.toNat_ofNat]
    omega

end Sys2Proof.Machine
end

section
/-! Arithmetic, the random byte, the index register, the timers and the unknown word (42_arithmetic.md R112, R118 to R121,
43_random.md R126, 44_memory_bcd.md R132, 47_timer_access.md R155 to R157, 48_unknown.md R160). -/

namespace Sys2Proof.Machine

/-! ### A move and a reverse subtraction -/

/-- Settles O36: `LD Vx, Vy` is one write of `Vx`. -/
theorem registerMoveCopiesVy : Obligations.RegisterMoveCopiesVy :=
  fun x y s => ⟨s.advance.setReg x (s.reg y), rfl, rfl, fun r => reg_setReg s.advance x r (s.reg y),
    (advance_setReg_changes s x _).keepsAllBut⟩

/-- Settles O40: `SUBN Vx, Vy` writes the difference modulo 256 and then the complement of the borrow. -/
theorem reverseSubtractSetsNotBorrow : Obligations.ReverseSubtractSetsNotBorrow := by
  refine fun x y s => ⟨resultThenFlag x (diffMod (s.reg y) (s.reg x)) (noBorrow (s.reg y) (s.reg x)) s, rfl, rfl,
    toNat_resultThenFlag_flag x _ _ s, fun hx => ?_, fun r hr hf => reg_resultThenFlag_other hr hf _ _ s,
    (resultThenFlag_changes s x _ _).keepsAllBut⟩
  rw [reg_resultThenFlag_dest hx, toNat_diffMod]

/-! ### Shifts: a flag, then the shift -/

section
variable (x : RegIdx) (c : Bool) (f : Byte → Byte) (s : State)

theorem reg_flagThenShift_dest (hx : x ≠ 15) : (flagThenShift x c f s).reg x = f (s.reg x) := by
  rw [reg_flagThenShift, if_pos rfl, if_neg (show x ≠ vf from hx)]

theorem reg_flagThenShift_flag (hx : x ≠ 15) : (flagThenShift x c f s).reg 15 = if c then 1 else 0 := by
  rw [reg_flagThenShift, if_neg hx.symm, if_pos (show (15 : RegIdx) = vf from rfl)]

/-- Where the destination is `VF`, it is the flag that is shifted (R122). -/
theorem reg_flagThenShift_vf : (flagThenShift 15 c f s).reg 15 = f (if c then 1 else 0) := by
  rw [reg_flagThenShift, if_pos rfl, if_pos (show (15 : RegIdx) = vf from rfl)]

end

theorem shrOut_eq (a : Byte) : shrOut a = decide (a.toNat % 2 = 1) := by
  rw [shrOut, BitVec.getLsbD, Nat.testBit_zero]

theorem shlOut_eq (a : Byte) : shlOut a = decide (0x80 ≤ a.toNat) := by
  have := a.isLt
  rw [shlOut, BitVec.getLsbD, Nat.testBit_eq_decide_div_mod_eq, decide_eq_decide]
  omega

theorem toNat_shrOut (a : Byte) : (if shrOut a then 1 else 0 : Byte).toNat = a.toNat % 2 := by
  rw [shrOut_eq]
  obtain h | h := Nat.mod_two_eq_zero_or_one a.toNat <;> simp [h]

theorem toNat_shlOut (a : Byte) : (if shlOut a then 1 else 0 : Byte).toNat = a.toNat / 128 := by
  have := a.isLt
  rw [shlOut_eq]
  by_cases h : 0x80 ≤ a.toNat <;> simp [h] <;> omega

/-- Settles O41: where `x` is not 15, `Vx` is shifted and `VF` is the bit shifted out; else the flag is shifted. -/
theorem shiftsWorkInPlace : Obligations.ShiftsWorkInPlace := by
  refine ⟨fun x u s => ⟨_, rfl, rfl, fun hx => ⟨?_, ?_⟩, ?_, fun r hr hf => reg_flagThenShift_other hr hf _ _ s,
      (flagThenShift_changes s x _ _).keepsAllBut⟩,
    fun x u s => ⟨_, rfl, rfl, fun hx => ⟨?_, ?_⟩, ?_, fun r hr hf => reg_flagThenShift_other hr hf _ _ s,
      (flagThenShift_changes s x _ _).keepsAllBut⟩⟩
  · rw [reg_flagThenShift_dest x _ _ s hx, BitVec.toNat_ushiftRight, Nat.shiftRight_eq_div_pow, pow_one]
  · rw [reg_flagThenShift_flag x _ _ s hx, toNat_shrOut]
  · rintro rfl
    rw [reg_flagThenShift_vf]
    cases shrOut (s.reg 15) <;> rfl
  · rw [reg_flagThenShift_dest x _ _ s hx, BitVec.toNat_shiftLeft, Nat.shiftLeft_eq, pow_one, mul_comm]
  · rw [reg_flagThenShift_flag x _ _ s hx, toNat_shlOut]
  · rintro rfl
    rw [reg_flagThenShift_vf, shlOut_eq]
    by_cases h : 0x80 ≤ (s.reg 15).toNat <;> simp [h]

/-- A flag byte has its flag at bit 0 and no other bit. -/
theorem getLsbD_flag (c : Bool) {i : Nat} (hi : i < 8) : (if c then 1 else 0 : Byte).getLsbD i = (c && decide (i = 0)) := by
  cases c <;> interval_cases i <;> rfl

/-- The shift back leaves bit 0 empty, and the flag is what stood there. -/
theorem shl_shr_or_flag (b : Byte) : (b >>> 1) <<< 1 ||| (if shrOut b then 1 else 0) = b := by
  refine BitVec.eq_of_getLsbD_eq fun i hi => ?_
  rw [BitVec.getLsbD_or, getLsbD_flag _ hi, BitVec.getLsbD_shiftLeft, BitVec.getLsbD_ushiftRight]
  interval_cases i <;> simp [shrOut]

/-- The shift back leaves bit 7 empty, and the flag is what stood there. -/
theorem flag_or_shr_shl (b : Byte) : (if shlOut b then 1 else 0 : Byte) <<< 7 ||| (b <<< 1) >>> 1 = b := by
  refine BitVec.eq_of_getLsbD_eq fun i hi => ?_
  rw [BitVec.getLsbD_or, BitVec.getLsbD_shiftLeft, getLsbD_flag _ (by omega), BitVec.getLsbD_ushiftRight,
    BitVec.getLsbD_shiftLeft]
  interval_cases i <;> simp [shlOut]

/-- Settles O42: for `x` other than 15 the result and the flag are the shift and the bit shifted out. -/
theorem shiftsLoseNoBit : Obligations.ShiftsLoseNoBit := by
  refine fun x u s hx => ⟨fun t h => ?_, fun t h => ?_⟩ <;> cases h
  · rw [reg_flagThenShift_dest x _ _ s hx, reg_flagThenShift_flag x _ _ s hx, shl_shr_or_flag]
  · rw [reg_flagThenShift_dest x _ _ s hx, reg_flagThenShift_flag x _ _ s hx, flag_or_shr_shl]

/-! ### The random byte, the index register, the timers and the unknown word -/

/-- Settles O43: `RND` consumes a draw and writes the masked byte to `Vx`. -/
theorem randomByteIsMasked : Obligations.RandomByteIsMasked :=
  ⟨fun x kk s => ⟨s.advance.consumeDraw.setReg x (s.rndByte &&& kk), rfl, rfl, rfl, rfl,
    fun r => reg_setReg s.advance.consumeDraw x r (s.rndByte &&& kk),
    (exec_changes (i := .rndVxKk x kk) rfl).keepsAllBut⟩,
    fun _ _ _ => ⟨rfl, rfl⟩⟩

/-- Settles O45: `ADD I, Vx` is one write of `I`, with the 16-bit sum. -/
theorem indexAddWrapsWithoutFlag : Obligations.IndexAddWrapsWithoutFlag := by
  refine fun x s => ⟨s.advance.setI (s.ireg + zextByte (s.reg x)), rfl, rfl, ?_, advance_setI_keepsAllButPcIndex s _⟩
  rw [setI_ireg, BitVec.toNat_add, toNat_zextByte]

/-- Settles O58: each of the three is one write after the advance. -/
theorem timerAccessMovesBytes : Obligations.TimerAccessMovesBytes :=
  ⟨fun x s => ⟨s.advance.setReg x s.dt, rfl, rfl, fun r => reg_setReg s.advance x r s.dt,
      (advance_setReg_changes s x _).keepsAllBut⟩,
    fun x s => ⟨s.advance.setDt (s.reg x), rfl, rfl, rfl, ((advance_changes s).trans (setDt_changes _ _)).keepsAllBut⟩,
    fun x s => ⟨s.advance.setSt (s.reg x), rfl, rfl, rfl, ((advance_changes s).trans (setSt_changes _ _)).keepsAllBut⟩⟩

/-- Settles O59: the report is all the handler does. -/
theorem unknownWordIsReportedAndIgnored : Obligations.UnknownWordIsReportedAndIgnored :=
  fun w s => ⟨s.advance.emit (.unknownOpcode s.pc w), rfl, rfl, rfl,
    ((advance_changes s).trans (emit_changes _ _)).keepsAllBut⟩

end Sys2Proof.Machine
end

section
/-! The memory instructions (44_memory_bcd.md R134 to R137, 20_memory.md R57, R58, R63): what each does where its check
passes, and which fault it takes where it does not. -/

namespace Sys2Proof.Machine

/-! ### Where the check passes -/

section
variable {x : RegIdx} {s : State}

theorem exec_ldBVx_of_passes (hlo : 0x050 ≤ s.ireg.toNat) (hhi : s.ireg.toNat + 2 ≤ 0xFFF) :
    exec (.ldBVx x) s = .next (storeBcd x s.advance) := by
  have hcheck : checkWrite (effAddr s 0) (effAddr s 2) = none := checkWrite_eq_none.2 ⟨hhi, hlo⟩
  rw [exec, execLdBVx, hcheck, checked_none]

theorem exec_ldMemVx_of_passes (hlo : 0x050 ≤ s.ireg.toNat) (hhi : s.ireg.toNat + x.val ≤ 0xFFF) :
    exec (.ldMemVx x) s = .next (storeRegs x s.advance) := by
  have hcheck : checkWrite (effAddr s 0) (effAddr s x.val) = none := checkWrite_eq_none.2 ⟨hhi, hlo⟩
  rw [exec, execLdMemVx, hcheck, checked_none]

theorem exec_ldVxMem_of_passes (hhi : s.ireg.toNat + x.val ≤ 0xFFF) :
    exec (.ldVxMem x) s = .next (loadRegs x s.advance) := by
  have hcheck : checkRead (effAddr s x.val) = none := checkRead_eq_none.2 hhi
  rw [exec, execLdVxMem, hcheck, checked_none]

theorem pc_after_ldMemVx (x : RegIdx) (s : State) : (storeRegs x s.advance).pc = s.pc + 2 :=
  storeRegs_changes s.advance x .pc (by decide)

theorem pc_after_ldVxMem (x : RegIdx) (s : State) : (loadRegs x s.advance).pc = s.pc + 2 :=
  loadRegs_changes s.advance x .pc (by decide)

/-- The whole of memory after `LD B, Vx`. -/
theorem readByte_after_ldBVx (hhi : s.ireg.toNat + 2 ≤ 0xFFF) (a : Nat) :
    (storeBcd x s.advance).readByte a = byteAfterBcd s x a :=
  readByte_storeBcd x s.advance a hhi

/-- The whole of memory after `LD [I], Vx`. -/
theorem readByte_after_ldMemVx (hhi : s.ireg.toNat + x.val ≤ 0xFFF) (a : Nat) :
    (storeRegs x s.advance).readByte a = byteAfterBlock s x a :=
  readByte_storeRegs x s.advance a (Nat.lt_succ_of_le hhi)

/-- The register file after `LD Vx, [I]`. -/
theorem reg_after_ldVxMem (r : RegIdx) :
    (loadRegs x s.advance).reg r = if r ≤ x then s.readByte (s.ireg.toNat + r.val) else s.reg r :=
  reg_loadRegs x r s.advance

theorem byteAfterBlock_of_mem {r : RegIdx} (h : r ≤ x) : byteAfterBlock s x (s.ireg.toNat + r.val) = s.reg r := by
  have hr : r.val ≤ x.val := h
  rw [byteAfterBlock, if_pos (by omega), Nat.add_sub_cancel_left]
  exact congrArg s.reg (Fin.ext (Nat.mod_eq_of_lt r.isLt))

theorem byteAfterBlock_of_outside {a : Nat} (h : a < s.ireg.toNat ∨ s.ireg.toNat + x.val < a) :
    byteAfterBlock s x a = s.readByte a :=
  if_neg (by omega)

end

/-- A number below 256 is the number of its byte. -/
theorem toNat_ofNat_byte {n : Nat} (h : n < 256) : (BitVec.ofNat 8 n).toNat = n :=
  (BitVec.toNat_ofNat n 8).trans (Nat.mod_eq_of_lt h)

/-- Settles O46: the three stores are at three addresses, and each digit fits a byte. -/
theorem bcdStoresThreeDigits : Obligations.BcdStoresThreeDigits := by
  intro x s hlo hhi
  have hx := (s.reg x).isLt
  have hread := readByte_after_ldBVx (x := x) hhi
  refine ⟨_, exec_ldBVx_of_passes hlo hhi, rfl, ?_, ?_, ?_, fun a ha => ?_,
    ((advance_changes s).trans (storeBcd_changes _ x)).keepsAllBut⟩
  · rw [hread, byteAfterBcd, if_pos rfl, toNat_ofNat_byte (by omega)]
  · rw [hread, byteAfterBcd, if_neg (by omega), if_pos rfl, toNat_ofNat_byte (by omega)]
  · rw [hread, byteAfterBcd, if_neg (by omega), if_neg (by omega), if_pos rfl, toNat_ofNat_byte (by omega)]
  · rw [hread, byteAfterBcd, if_neg (by omega), if_neg (by omega), if_neg (by omega)]

/-- Settles O47, by what memory reads as after the block store. -/
theorem blockStoreWritesV0ToVx : Obligations.BlockStoreWritesV0ToVx := by
  intro x s hlo hhi
  have hread := readByte_after_ldMemVx (x := x) hhi
  exact ⟨_, exec_ldMemVx_of_passes hlo hhi, pc_after_ldMemVx x s, fun r hr => (hread _).trans (byteAfterBlock_of_mem hr),
    fun a ha => (hread a).trans (byteAfterBlock_of_outside ha),
    ((advance_changes s).trans (storeRegs_changes _ x)).keepsAllBut⟩

/-- Settles O48, by what the registers hold after the block load. -/
theorem blockLoadReadsV0ToVx : Obligations.BlockLoadReadsV0ToVx :=
  fun x s hhi => ⟨_, exec_ldVxMem_of_passes hhi, pc_after_ldVxMem x s, fun r => reg_after_ldVxMem r,
    ((advance_changes s).trans (loadRegs_changes _ x)).keepsAllBut⟩

/-! ### Round trips (R137) -/

/-- Settles O50: the second half reads at the same addresses what the first wrote there. -/
theorem blockTransfersRoundTrip : Obligations.BlockTransfersRoundTrip := by
  refine fun x s t u hlo hhi => ⟨fun ht hu r => ?_, fun ht hu a => ?_⟩ <;>
    have hI : t.ireg = s.ireg := exec_changes ht .index (by simp [mayChange])
  · have hreg := exec_regs ht (by simp [mayChange]) r
    cases (exec_ldVxMem_of_passes (by rw [hI]; exact hhi)).symm.trans hu
    cases (exec_ldMemVx_of_passes hlo hhi).symm.trans ht
    rw [reg_after_ldVxMem, hI]
    split
    · next hr => rw [readByte_after_ldMemVx hhi, byteAfterBlock_of_mem hr]
    · exact hreg
  · have hmem : t.mem = s.mem := exec_changes ht .memory (by simp [mayChange])
    cases (exec_ldMemVx_of_passes (by rw [hI]; exact hlo) (by rw [hI]; exact hhi)).symm.trans hu
    cases (exec_ldVxMem_of_passes hhi).symm.trans ht
    rw [readByte_after_ldMemVx (by rw [hI]; exact hhi)]
    by_cases ha : s.ireg.toNat ≤ a ∧ a ≤ s.ireg.toNat + x.val
    · obtain ⟨k, rfl⟩ := Nat.exists_eq_add_of_le ha.1
      have hk : (⟨k, by omega⟩ : RegIdx) ≤ x := Nat.le_of_add_le_add_left ha.2
      have hstored := byteAfterBlock_of_mem (s := loadRegs x s.advance) hk
      rw [hI] at hstored
      rw [hstored, reg_after_ldVxMem, if_pos hk]
    · rw [byteAfterBlock_of_outside (by rw [hI]; omega)]
      exact congrArg (Memory.read · a) hmem

/-! ### The next fetch (20_memory.md R63) -/

theorem fetch_of_readByte {t : State} {b : Nat → Byte} {a : Nat} (hpc : t.pc.toNat = a) (ha : a + 1 ≤ 0xFFF)
    (hread : ∀ a, t.readByte a = b a) : fetch t = some (wordOfBytes (b a) (b (a + 1))) := by
  subst hpc
  refine (if_pos (Nat.lt_succ_of_le ha)).trans (congrArg some ?_)
  rw [State.readWord, hread, hread]

theorem toNat_pc_add_two {s : State} (h : s.pc.toNat + 3 ≤ 0xFFF) : (s.pc + 2).toNat = s.pc.toNat + 2 := by
  rw [BitVec.toNat_add]
  exact Nat.mod_eq_of_lt (by simp; omega)

/-- Settles O51: the fetch after a store reads the whole of memory as the store left it. -/
theorem storeIsSeenByTheNextFetch : Obligations.StoreIsSeenByTheNextFetch := by
  refine ⟨fun x s hlo hhi hpc => ⟨_, exec_ldMemVx_of_passes hlo hhi, ?_⟩,
    fun x s hlo hhi hpc => ⟨_, exec_ldBVx_of_passes hlo hhi, ?_⟩⟩
  · have hnext := (congrArg BitVec.toNat (pc_after_ldMemVx x s)).trans (toNat_pc_add_two hpc)
    exact fetch_of_readByte hnext (by omega) (readByte_after_ldMemVx hhi)
  · exact fetch_of_readByte (toNat_pc_add_two hpc) (by omega) (readByte_after_ldBVx hhi)

/-! ### Where the check fails -/

theorem checkRead_of_gt {hi : Nat} (h : hi > 0xFFF) : checkRead hi = some .addressFault := if_pos h

theorem checkWrite_of_gt {lo hi : Nat} (h : hi > 0xFFF) : checkWrite lo hi = some .addressFault := if_pos h

theorem checkWrite_of_font {lo hi : Nat} (hhi : hi ≤ 0xFFF) (hlo : lo < 0x050) :
    checkWrite lo hi = some .fontWriteFault :=
  (if_neg (Nat.not_lt.2 hhi)).trans (if_pos hlo)

theorem checkSprite_of_ne_zero {n : Nibble} (hn : n ≠ 0) (s : State) :
    checkSprite n s = checkRead (s.ireg.toNat + n.toNat - 1) := by
  have : n.toNat ≠ 0 := fun h => hn (BitVec.eq_of_toNat_eq h)
  rw [checkSprite, if_neg hn, effAddr, Nat.add_sub_assoc (by omega)]

theorem exec_of_check_fails {c : Option FaultCause} {f : FaultCause} {i : Instr} {s t : State}
    (h : exec i s = .next (checked c i s t)) (hc : c = some f) : exec i s = .next (takeFault f i s) := by
  rw [h, hc, checked_some]

/-- The four memory instructions are checked: a store for its range and the font, a load for its range. -/
theorem exec_memory_checked {i : Instr} {s : State} {hi : Nat} {isStore : Bool}
    (h : (∃ x, i = .ldBVx x ∧ hi = s.ireg.toNat + 2 ∧ isStore = true) ∨
      (∃ x : RegIdx, i = .ldMemVx x ∧ hi = s.ireg.toNat + x.val ∧ isStore = true) ∨
      (∃ x : RegIdx, i = .ldVxMem x ∧ hi = s.ireg.toNat + x.val ∧ isStore = false) ∨
      (∃ x y n, i = .drwVxVyN x y n ∧ n ≠ 0 ∧ hi = s.ireg.toNat + n.toNat - 1 ∧ isStore = false)) :
    ∃ t, exec i s = .next (checked (if isStore then checkWrite s.ireg.toNat hi else checkRead hi) i s t) := by
  obtain ⟨x, rfl, rfl, rfl⟩ | ⟨x, rfl, rfl, rfl⟩ | ⟨x, rfl, rfl, rfl⟩ | ⟨x, y, n, rfl, hn, rfl, rfl⟩ := h
  · exact ⟨_, rfl⟩
  · exact ⟨_, rfl⟩
  · exact ⟨_, rfl⟩
  · rw [if_neg (by decide), ← checkSprite_of_ne_zero hn]
    exact ⟨_, rfl⟩

/-- Settles O49: the range is checked before the font, and only a store is checked for the font. -/
theorem memoryFaultsAreLatched : Obligations.MemoryFaultsAreLatched := by
  intro i s hi isStore h
  obtain ⟨t, ht⟩ := exec_memory_checked h
  refine ⟨fun hgt => exec_raised (exec_of_check_fails ht ?_),
    fun hle hstore hfont => exec_raised (exec_of_check_fails ht ?_)⟩
  · rw [checkWrite_of_gt hgt, checkRead_of_gt hgt, ite_self]
  · rw [hstore, if_pos rfl, checkWrite_of_font hle hfont]

end Sys2Proof.Machine
end

section
/-! The display (45_display.md R140 to R143): `CLS`, and `DRW` once and twice, through the pixels of its sprite. -/

namespace Sys2Proof.Machine

/-! ### CLS -/

/-- Settles O52: every pixel of the clear framebuffer is 0. -/
theorem clsClearsTheFramebuffer : Obligations.ClsClearsTheFramebuffer :=
  fun _ s => ⟨s.advance.setFb Framebuffer.clear, rfl, rfl, fun _ => Framebuffer.pixel_clear _ _,
    ((advance_changes s).trans (setFb_changes _ _)).keepsAllBut⟩

/-! ### The pixels of a sprite -/

section
variable {x y : RegIdx} {n : Nibble} {s t : State}

theorem toNat_originByte (s : State) (x : RegIdx) : ((if x = vf then 0 else s.reg x) : Byte).toNat = originByte s x := by
  rw [originByte, apply_ite BitVec.toNat]
  rfl

/-- The sprite covers a pixel exactly when the pixel is one of its 1 pixels. -/
theorem mem_drawCells {px : Fin 64} {py : Fin 32} : (px, py) ∈ drawCells x y n s ↔
    spriteCovers s (originByte s x) (originByte s y) n.toNat px py := by
  rw [drawCells, mem_spriteCells, toNat_originByte, toNat_originByte]
  refine exists_congr fun r => and_congr_right fun _ => exists_congr fun c => and_congr_right fun _ =>
    and_congr_right fun _ => ?_
  simp only [torus, Prod.mk.injEq, Fin.ext_iff, Nat.mod_add_mod, eq_comm]

/-- A sprite row has a 1 pixel exactly when it is not 0. -/
theorem exists_spriteBit {b : Byte} : (∃ c < 8, spriteBit b c = true) ↔ b ≠ 0 := by
  constructor
  · rintro ⟨c, _, hc⟩ rfl
    simp [spriteBit] at hc
  · refine fun hb => by_contra fun hno => hb (BitVec.eq_of_getLsbD_eq fun i hi => ?_)
    have hbit : spriteBit b (7 - i) = false := Bool.eq_false_iff.2 fun hset => hno ⟨7 - i, by omega, hset⟩
    rw [spriteBit, Nat.sub_sub_self (by omega)] at hbit
    rw [hbit, BitVec.ofNat_eq_ofNat, BitVec.getLsbD_zero]

/-- The sprite has a 1 pixel exactly when one of its rows is not 0. -/
theorem exists_mem_drawCells : (∃ p, p ∈ drawCells x y n s) ↔ ∃ r < n.toNat, s.readByte (s.ireg.toNat + r) ≠ 0 := by
  constructor
  · rintro ⟨p, hp⟩
    obtain ⟨r, hr, c, hc, hbit, _⟩ := mem_spriteCells.1 hp
    exact ⟨r, hr, exists_spriteBit.1 ⟨c, hc, hbit⟩⟩
  · rintro ⟨r, hr, hrow⟩
    obtain ⟨c, hc, hbit⟩ := exists_spriteBit.2 hrow
    exact ⟨_, mem_spriteCells.2 ⟨r, hr, c, hc, hbit, rfl⟩⟩

/-- The pixels of the sprite depend on memory, `I` and the registers other than `VF`, which `DRW` resets first. -/
theorem drawCells_congr (hmem : t.mem = s.mem) (hI : t.ireg = s.ireg) (hreg : ∀ r, r ≠ vf → t.reg r = s.reg r) :
    drawCells x y n t = drawCells x y n s := by
  have horigin : ∀ z, ((if z = vf then 0 else t.reg z) : Byte) = if z = vf then 0 else s.reg z := fun z => by
    by_cases hz : z = vf
    · rw [if_pos hz, if_pos hz]
    · rw [if_neg hz, if_neg hz, hreg z hz]
  have hrow : spriteRow t = spriteRow s := by
    funext r
    simp only [spriteRow, effAddr, State.readByte, hmem, hI]
  simp only [drawCells, spriteCells, horigin, hrow]

/-! ### One draw -/

theorem exec_drw_of_passes (h : n = 0 ∨ s.ireg.toNat + n.toNat - 1 ≤ 0xFFF) :
    exec (.drwVxVyN x y n) s = .next (drawEffect x y n s.advance) := by
  rw [exec, execDrwVxVyN, checkSprite_eq_none.2 h, checked_none]

/-- What a draw that passes its check leaves: the sprite's pixels inverted, and in `VF` whether one of them was lit. -/
theorem exec_drw_spec (h : n = 0 ∨ s.ireg.toNat + n.toNat - 1 ≤ 0xFFF) (ht : exec (.drwVxVyN x y n) s = .next t) :
    (∀ px py, t.fb.pixel px py = (s.fb.pixel px py ^^ decide ((px, py) ∈ drawCells x y n s))) ∧
    (∀ r : RegIdx, r ≠ 15 → t.reg r = s.reg r) ∧ (t.reg 15 = 0 ∨ t.reg 15 = 1) ∧
    (t.reg 15 = 1 ↔ ∃ p ∈ drawCells x y n s, s.fb.pixel p.1 p.2 = true) := by
  cases (exec_drw_of_passes h).symm.trans ht
  exact drawEffect_spec x y n s.advance

/-- Settles O53: the pixels of the sprite are the pixels it covers. -/
theorem drawXorsTheSprite : Obligations.DrawXorsTheSprite := by
  intro x y n s h
  have ht := exec_drw_of_passes (x := x) (y := y) h
  obtain ⟨hpixel, hother, hbit, hhit⟩ := exec_drw_spec h ht
  refine ⟨_, ht, rfl, fun px py => ?_, hbit, ?_, hother,
    ((advance_changes s).trans (drawEffect_changes _ x y n)).keepsAllBut⟩
  · rw [hpixel, ← mem_drawCells]
    by_cases hmem : (px, py) ∈ drawCells x y n s <;> simp [hmem]
  · rw [hhit, Prod.exists]
    exact exists_congr fun px => exists_congr fun py => and_comm.trans (and_congr_right fun _ => mem_drawCells)

/-! ### Two draws (R143) -/

/-- The second of two draws has the sprite of the first. -/
theorem drawCells_after_drw (h : n = 0 ∨ s.ireg.toNat + n.toNat - 1 ≤ 0xFFF) (ht : exec (.drwVxVyN x y n) s = .next t) :
    drawCells x y n t = drawCells x y n s := by
  obtain ⟨_, hother, _⟩ := exec_drw_spec h ht
  exact drawCells_congr (exec_changes ht .memory (by simp [mayChange])) (exec_changes ht .index (by simp [mayChange]))
    hother

/-- The second draw collides exactly on the pixels the first one lit. -/
theorem second_drw_collides_iff {u : State} (h : n = 0 ∨ s.ireg.toNat + n.toNat - 1 ≤ 0xFFF)
    (ht : exec (.drwVxVyN x y n) s = .next t) (hu : exec (.drwVxVyN x y n) t = .next u) :
    u.reg 15 = 1 ↔ ∃ p ∈ drawCells x y n s, s.fb.pixel p.1 p.2 = false := by
  have hI : t.ireg = s.ireg := exec_changes ht .index (by simp [mayChange])
  obtain ⟨hpixel, _, _, _⟩ := exec_drw_spec h ht
  obtain ⟨_, _, _, hhit⟩ := exec_drw_spec (by rw [hI]; exact h) hu
  rw [hhit, drawCells_after_drw h ht]
  refine exists_congr fun p => and_congr_right fun hp => ?_
  rw [hpixel, decide_eq_true hp, Bool.xor_true, Bool.not_eq_true']

end

/-- Settles O54: both draws invert the same pixels, so each pixel is inverted twice or not at all. -/
theorem drawIsItsOwnInverse : Obligations.DrawIsItsOwnInverse := by
  intro x y n s t u h ht hu
  have hI : t.ireg = s.ireg := exec_changes ht .index (by simp [mayChange])
  obtain ⟨hpixel, _, _, _⟩ := exec_drw_spec h ht
  obtain ⟨hpixel', _, _, _⟩ := exec_drw_spec (by rw [hI]; exact h) hu
  have hcollides := second_drw_collides_iff h ht hu
  refine ⟨fun px py => ?_, ?_, fun hclear => ?_⟩
  · rw [hpixel', drawCells_after_drw h ht, hpixel, Bool.xor_assoc, Bool.xor_self, Bool.xor_false]
  · rw [hcollides, Prod.exists]
    exact exists_congr fun px => exists_congr fun py => and_comm.trans (and_congr_right fun _ => mem_drawCells)
  · rw [hcollides, ← exists_mem_drawCells (x := x) (y := y)]
    exact exists_congr fun ⟨px, py⟩ => and_iff_left_of_imp fun hp => hclear px py (mem_drawCells.1 hp)

/-- Reset with every row of the framebuffer lit in its eight leftmost pixels. -/
def litState : State := { State.reset with fb := Vector.replicate 32 0xFF }

/-- Refutes O55: over lit pixels, the first draw of the top row of glyph 0 turns its pixels off, and the second turns them
on without a collision, though the row is not 0. -/
theorem not_secondDrawCollidesWheneverSpriteIsNonzero : ¬ Obligations.SecondDrawCollidesWheneverSpriteIsNonzero := by
  intro h
  exact absurd ((h 0 0 1 litState _ _ (by decide) rfl rfl).2 ⟨0, by decide, by decide⟩) (by decide)

end Sys2Proof.Machine
end
